-- ==== Sys2Proof/Word.lean ====
section
/-! DEFINITION. The machine's one data type, the Word, and the byte that memory is made of
(spec/00_scope.md R1, R3). -/

namespace Sys2Proof

/-- One byte of memory. -/
abbrev Byte := BitVec 8

/-- "32-bit unsigned integer; the VM's only data type" (R3). Arithmetic on it wraps modulo `2 ^ 32`. -/
abbrev Word := BitVec 32

end Sys2Proof
end

