-- ==== Sys2Proof/Machine/Flags.lean ====
section
/-! DEFINITION. The machine has no status flags (spec/10_state.md R17): a comparison pushes a Word
that is 1 or 0, and a conditional instruction pops a Word and tests it against zero. These two
conversions are all there is. -/

namespace Sys2Proof.Machine

/-- The Word a comparison pushes: 1 for true, 0 for false (R131 to R134). -/
def flagWord (b : Bool) : Word := if b then 1 else 0

/-- A flag Word is true when any of its 32 bits is set (R120). -/
def flagTrue (f : Word) : Bool := f != 0

end Sys2Proof.Machine
end

