-- ==== Sys2Proof/Config.lean ====
section
/-! DEFINITION. The fixed sizes of spec/00_scope.md R1. They are "fixed, not configurable".
The tables that R54 and R180 want replaceable (opcode numbers, cause codes) are data in
`Sys2Proof/Decode.lean` and `Sys2Proof/Machine/Ops.lean`. The spec's one OPEN parameter,
`CYCLES_PER_STEP` (R2), has no counterpart: no rule depends on it and the model has no time (R218). -/

namespace Sys2Proof

/-- `MEM_BYTES` of R1: the number of bytes of the one address space. -/
abbrev Config.memBytes : Nat := 65536

/-- `WST_WORDS` and `RST_WORDS` of R1: the number of Words each stack holds. -/
abbrev Config.stackWords : Nat := 256

/-- The longest instruction in bytes: `lit.w`, an instruction byte and four immediate bytes (R51). -/
abbrev Config.maxLength : Nat := 5

end Sys2Proof
end

