-- ==== Sys2Proof/Syntax.lean ====
section
/-! DEFINITION. The instructions as syntax: the 32 opcode names, the operand widths, and `Instr`,
one constructor for each row of spec/opcode_table.json. -/

namespace Sys2Proof

/-- The 32 opcode names of spec/30_encoding.md R54 (`overOp` is `over`, a word Lean keeps for
itself). Their numbers are in the one table
`opcodeTable` of `Sys2Proof/Decode.lean`. -/
inductive Op where
  | nop | lit | dup | drop | swap | overOp | rot | nip
  | call | ccall | ret | cret | jmp | cjmp | wtr | rtw
  | eq | neq | lt | gt | and | or | xor | shift
  | add | sub | mul | divmod | fetch | store | sext | trap
deriving DecidableEq, Repr

/-- The three widths a size field names (R52). The fourth value of the field, `11`, is unassigned
and is `none` wherever a decoded size field is an `Option Width`. -/
inductive Width where
  | word | byte | short
deriving DecidableEq, Repr

/-- An instruction, with the operands its encoding holds. One constructor per row of
spec/opcode_table.json: a size-consuming opcode has one for each value of its size field (`X` is
the unassigned `11`). `rel` is the relative flag, held only by the six opcodes that read it (R55);
a field an opcode ignores is not part of the instruction (R61). The immediate of `lit` is part of
the instruction, as its encoding has it (R51, R56). -/
inductive Instr where
  | nop
  | litW (imm : BitVec 32)
  | litB (imm : BitVec 8)
  | litS (imm : BitVec 16)
  | litX
  | dup
  | drop
  | swap
  | overOp
  | rot
  | nip
  | call (rel : Bool)
  | ccall (rel : Bool)
  | ret
  | cret
  | jmp (rel : Bool)
  | cjmp (rel : Bool)
  | wtr
  | rtw
  | eq
  | neq
  | lt
  | gt
  | and
  | or
  | xor
  | shift
  | add
  | sub
  | mul
  | divmod
  | fetchW (rel : Bool)
  | fetchB (rel : Bool)
  | fetchS (rel : Bool)
  | fetchX (rel : Bool)
  | storeW (rel : Bool)
  | storeB (rel : Bool)
  | storeS (rel : Bool)
  | storeX (rel : Bool)
  | sextW
  | sextB
  | sextS
  | sextX
  | trap
deriving DecidableEq, Repr

end Sys2Proof
end

