-- ==== Sys2Proof/Decode.lean ====
section
/-! DEFINITION. The instruction decoder and the encoder (spec/30_encoding.md), the one opcode table,
and the byte order helpers that the decoder and the memory unit share (spec/20_memory.md R32). -/

namespace Sys2Proof

/-! ## Byte order (R32, R33, R34): the byte at the lowest address is the least significant -/

/-- The 16-bit value whose bytes, lowest address first, are `b0` and `b1`. -/
def joinShort (b0 b1 : Byte) : BitVec 16 := b1 ++ b0

/-- The Word whose bytes, lowest address first, are `b0` to `b3`. -/
def joinWord (b0 b1 b2 b3 : Byte) : Word := b3 ++ b2 ++ b1 ++ b0

/-- Byte `k` of a value, byte 0 the least significant: bits `8k+7 : 8k`. -/
def byteAt {n : Nat} (v : BitVec n) (k : Nat) : Byte := v.extractLsb' (8 * k) 8

/-! ## The opcode map (R54) and the fields of the instruction byte (R50, R52) -/

/-- The one table of opcode numbers: the number of an opcode is its place (R54, the spec's
decision D1, made to be replaced as data). -/
def opcodeTable : List Op :=
  [.nop, .lit, .dup, .drop, .swap, .overOp, .rot, .nip,
   .call, .ccall, .ret, .cret, .jmp, .cjmp, .wtr, .rtw,
   .eq, .neq, .lt, .gt, .and, .or, .xor, .shift,
   .add, .sub, .mul, .divmod, .fetch, .store, .sext, .trap]

/-- The opcode a 5-bit field selects. -/
def opOfBits (n : BitVec 5) : Option Op := opcodeTable[n.toNat]?

/-- The 5-bit field of an opcode. -/
def opBits (op : Op) : BitVec 5 := BitVec.ofNat 5 (opcodeTable.idxOf op)

/-- The width a size field names; `none` for the unassigned `11` (R52). -/
def widthOfBits (n : BitVec 2) : Option Width :=
  match n.toNat with
  | 0 => some .word
  | 1 => some .byte
  | 2 => some .short
  | _ => none

/-- The size field of a width, `11` for `none` (R52). -/
def widthBits : Option Width → BitVec 2
  | some .word => 0
  | some .byte => 1
  | some .short => 2
  | none => 3

/-- The opcode field of an instruction byte, bits 4:0 (R50). -/
def opField (b : Byte) : BitVec 5 := b.extractLsb' 0 5

/-- The operand-size field of an instruction byte, bits 6:5 (R50). -/
def sizeField (b : Byte) : BitVec 2 := b.extractLsb' 5 2

/-- The relative flag of an instruction byte, bit 7 (R50). -/
def relField (b : Byte) : Bool := b.getLsbD 7

/-- The number of bytes a width names (R52). -/
def Width.bytes : Width → Nat
  | .word => 4
  | .byte => 1
  | .short => 2

/-! ## Decoding -/

/-- Why a list of bytes does not begin with an instruction. -/
inductive DecodeError where
  /-- There is no byte to be the instruction byte (R73: the fetch is out of memory). -/
  | noInstructionByte
  /-- The instruction byte is a legal `lit` and fewer bytes follow than its immediate has (R130). -/
  | immediateCutShort
  /-- The opcode has no entry in the table: the default arm of R75, which no byte reaches (R59). -/
  | noHandler
deriving DecidableEq, Repr

/-- `lit`: the size field selects an immediate of 4, 1 or 2 bytes that follow the instruction byte,
least significant first (R56); size `11` is illegal and has no immediate (R58, R60). -/
def decodeLit (size : Option Width) (rest : List Byte) : Except DecodeError (Instr × List Byte) :=
  match size with
  | some .word =>
    match rest with
    | b0 :: b1 :: b2 :: b3 :: tail => .ok (.litW (joinWord b0 b1 b2 b3), tail)
    | _ => .error .immediateCutShort
  | some .byte =>
    match rest with
    | b0 :: tail => .ok (.litB b0, tail)
    | _ => .error .immediateCutShort
  | some .short =>
    match rest with
    | b0 :: b1 :: tail => .ok (.litS (joinShort b0 b1), tail)
    | _ => .error .immediateCutShort
  | none => .ok (.litX, rest)

/-- The form of `fetch` a size field selects (R160). -/
def fetchOfSize (size : Option Width) (rel : Bool) : Instr :=
  match size with
  | some .word => .fetchW rel
  | some .byte => .fetchB rel
  | some .short => .fetchS rel
  | none => .fetchX rel

/-- The form of `store` a size field selects (R161). -/
def storeOfSize (size : Option Width) (rel : Bool) : Instr :=
  match size with
  | some .word => .storeW rel
  | some .byte => .storeB rel
  | some .short => .storeS rel
  | none => .storeX rel

/-- The form of `sext` a size field selects (R143). -/
def sextOfSize (size : Option Width) : Instr :=
  match size with
  | some .word => .sextW
  | some .byte => .sextB
  | some .short => .sextS
  | none => .sextX

/-- The instruction an opcode and the two other fields make, and the bytes it leaves (R51, R55). An
opcode that does not read a field ignores it (R61). -/
def decodeOp (op : Op) (size : Option Width) (rel : Bool) (rest : List Byte) :
    Except DecodeError (Instr × List Byte) :=
  match op with
  | .nop => .ok (.nop, rest)
  | .lit => decodeLit size rest
  | .dup => .ok (.dup, rest)
  | .drop => .ok (.drop, rest)
  | .swap => .ok (.swap, rest)
  | .overOp => .ok (.overOp, rest)
  | .rot => .ok (.rot, rest)
  | .nip => .ok (.nip, rest)
  | .call => .ok (.call rel, rest)
  | .ccall => .ok (.ccall rel, rest)
  | .ret => .ok (.ret, rest)
  | .cret => .ok (.cret, rest)
  | .jmp => .ok (.jmp rel, rest)
  | .cjmp => .ok (.cjmp rel, rest)
  | .wtr => .ok (.wtr, rest)
  | .rtw => .ok (.rtw, rest)
  | .eq => .ok (.eq, rest)
  | .neq => .ok (.neq, rest)
  | .lt => .ok (.lt, rest)
  | .gt => .ok (.gt, rest)
  | .and => .ok (.and, rest)
  | .or => .ok (.or, rest)
  | .xor => .ok (.xor, rest)
  | .shift => .ok (.shift, rest)
  | .add => .ok (.add, rest)
  | .sub => .ok (.sub, rest)
  | .mul => .ok (.mul, rest)
  | .divmod => .ok (.divmod, rest)
  | .fetch => .ok (fetchOfSize size rel, rest)
  | .store => .ok (storeOfSize size rel, rest)
  | .sext => .ok (sextOfSize size, rest)
  | .trap => .ok (.trap, rest)

/-- The decoder: the instruction a list of bytes begins with, and the bytes after it. The choice is
on the opcode field alone (R75); only `lit` reads beyond the first byte (R58). -/
def decode (bytes : List Byte) : Except DecodeError (Instr × List Byte) :=
  match bytes with
  | [] => .error .noInstructionByte
  | b :: rest =>
    match opOfBits (opField b) with
    | none => .error .noHandler
    | some op => decodeOp op (widthOfBits (sizeField b)) (relField b) rest

/-! ## Encoding -/

/-- The instruction byte with these three fields: `rel * 128 + size * 32 + op` (R50). -/
def instrByte (op : Op) (size : Option Width) (rel : Bool) : Byte :=
  BitVec.ofBool rel ++ widthBits size ++ opBits op

/-- The canonical byte of an opcode that reads neither field: both zero (R61). -/
def plainByte (op : Op) : Byte := instrByte op (some .word) false

/-- The bytes of an instruction, lowest address first, every unused field zero (R51, R61). -/
def encode : Instr → List Byte
  | .nop => [plainByte .nop]
  | .litW imm =>
    [instrByte .lit (some .word) false, byteAt imm 0, byteAt imm 1, byteAt imm 2, byteAt imm 3]
  | .litB imm => [instrByte .lit (some .byte) false, imm]
  | .litS imm => [instrByte .lit (some .short) false, byteAt imm 0, byteAt imm 1]
  | .litX => [instrByte .lit none false]
  | .dup => [plainByte .dup]
  | .drop => [plainByte .drop]
  | .swap => [plainByte .swap]
  | .overOp => [plainByte .overOp]
  | .rot => [plainByte .rot]
  | .nip => [plainByte .nip]
  | .call rel => [instrByte .call (some .word) rel]
  | .ccall rel => [instrByte .ccall (some .word) rel]
  | .ret => [plainByte .ret]
  | .cret => [plainByte .cret]
  | .jmp rel => [instrByte .jmp (some .word) rel]
  | .cjmp rel => [instrByte .cjmp (some .word) rel]
  | .wtr => [plainByte .wtr]
  | .rtw => [plainByte .rtw]
  | .eq => [plainByte .eq]
  | .neq => [plainByte .neq]
  | .lt => [plainByte .lt]
  | .gt => [plainByte .gt]
  | .and => [plainByte .and]
  | .or => [plainByte .or]
  | .xor => [plainByte .xor]
  | .shift => [plainByte .shift]
  | .add => [plainByte .add]
  | .sub => [plainByte .sub]
  | .mul => [plainByte .mul]
  | .divmod => [plainByte .divmod]
  | .fetchW rel => [instrByte .fetch (some .word) rel]
  | .fetchB rel => [instrByte .fetch (some .byte) rel]
  | .fetchS rel => [instrByte .fetch (some .short) rel]
  | .fetchX rel => [instrByte .fetch none rel]
  | .storeW rel => [instrByte .store (some .word) rel]
  | .storeB rel => [instrByte .store (some .byte) rel]
  | .storeS rel => [instrByte .store (some .short) rel]
  | .storeX rel => [instrByte .store none rel]
  | .sextW => [instrByte .sext (some .word) false]
  | .sextB => [instrByte .sext (some .byte) false]
  | .sextS => [instrByte .sext (some .short) false]
  | .sextX => [instrByte .sext none false]
  | .trap => [plainByte .trap]

/-! ## A table word as bytes -/

/-- The bytes of an instruction given as one number, the first byte in bits 7:0, with every bit
from `nbits` up zero, to the length of the longest instruction. -/
def tableBytes (nbits w : Nat) : List Byte :=
  (List.range Config.maxLength).map fun k => BitVec.ofNat 8 ((w % 2 ^ nbits) >>> (8 * k))

/-- The instruction the decoder reads from such a number. -/
def decodeTableWord (nbits w : Nat) : Option Instr :=
  match decode (tableBytes nbits w) with
  | .ok (i, _) => some i
  | .error _ => none

end Sys2Proof
end

