-- ==== Sys2Proof/Machine/State.lean ====
section
/-! DEFINITION. The whole state of one `stack_cpu_core` instance (spec/10_state.md R10) as plain
data, its reset value (R22), and the names of the causes, faults and refusals. -/

namespace Sys2Proof.Machine

/-- The eight causes of spec/60_exceptions.md R180, in the spec's order. Their 3-bit codes are
`causeCode` in `Sys2Proof/Machine/Ops.lean`. -/
inductive Cause where
  | divByZero | wstUnderflow | wstOverflow | rstUnderflow | rstOverflow
  | memoryAccessError | invalidInstruction | invalidTrap
deriving DecidableEq, Repr

/-- Whether the core still executes (R10, R18, R78). The payloads of a halt and of a fault are the
latches `exitStatus` and `faultCause` of `State`. -/
inductive RunState where
  | running | halted | faulted
deriving DecidableEq, Repr

/-- One of the two stacks (R12, R13): 256 slots and a pointer in 0 to 256, both included (R14),
which is the number of Words on the stack. A slot at or above the pointer keeps what was last
written to it (R16). -/
structure Stack where
  slots : Vector Word Config.stackWords
  ptr : Fin (Config.stackWords + 1)
deriving DecidableEq, Repr

/-- A stack as reset leaves it: every slot 0 and the pointer 0 (R22). -/
def Stack.empty : Stack where
  slots := Vector.replicate Config.stackWords 0
  ptr := 0

/-- The memory of R19 as the list of the bytes that differ from 0, the value an unlisted address
reads as (R23), addresses rising. `Memory.wf` in `Sys2Proof/Machine/Ops.lean` says this form. -/
abbrev Memory := List Host.Cell

/-- The ten items of R10 and nothing else. `wst.slots`, `wst.ptr`, `rst.slots` and `rst.ptr` are
the spec's `wst`, `wsp`, `rst` and `rsp`. -/
structure State where
  /-- `mem`: 65536 bytes shared by instructions and data (R19). -/
  mem : Memory
  /-- `wst` and `wsp`: the working stack (R12). -/
  wst : Stack
  /-- `rst` and `rsp`: the return stack (R13). -/
  rst : Stack
  /-- `pc`: the address of the next instruction byte to fetch, not bounded to the memory (R15). -/
  pc : Word
  /-- `run_state` (R18). -/
  runState : RunState
  /-- `fault_cause`: the code of the cause, meaningful when faulted (R18). -/
  faultCause : BitVec 3
  /-- `exit_status`, meaningful when halted (R18). -/
  exitStatus : Word
  /-- `out`: the Words handed to the character sink, oldest first (R10, R172). -/
  out : List Word
deriving DecidableEq, Repr

/-- The state right after reset, each value the spec's own (R22, R210, R211): Boot in R70's
data flow. -/
def State.reset : State where
  mem := []
  wst := Stack.empty
  rst := Stack.empty
  pc := 0
  runState := .running
  faultCause := 0
  exitStatus := 0
  out := []

/-- Ways the machine stops outside its own state. There are none, so nobody raises one: every fault
of the spec is latched in the state (R184) and a stopped core answers a step by doing nothing
(R80), so both are next states. Having no constructor is safe: no behaviour is cut off. -/
inductive Fault where
deriving DecidableEq, Repr

/-- What the model gives no meaning. -/
inductive Refusal where
  /-- Raised by an arm of `exec` for an instruction without a meaning yet; none is left. Safe: the
  model stops where the hardware goes on. -/
  | notModelled (mnemonic : String)
  /-- Raised by the host move `launch` for an image longer than the memory, which "is not a launch
  of this machine" (spec/93_implementation_defined.md U6). No step raises it. Safe. -/
  | imageTooLong
  /-- Raised by the host move `load` after the first step, which the contract does not have: "the
  model gives the host no such move" (spec/93_implementation_defined.md U13). No step raises it.
  Safe. -/
  | loadAfterFirstStep
  /-- Raised by the host move `load` before the first step for an address that is not the next of the
  one image: a reload, a repeated address, a gap. The contract has no such move (U13, D20; log entry
  14). No step raises it. Safe. -/
  | loadNotNextByte
deriving DecidableEq, Repr

end Sys2Proof.Machine
end

