-- ==== Sys2Proof/Machine/Ops.lean ====
section
/-! DEFINITION. The named operations every meaning is written over: memory bytes, the checked reads
and writes of spec/20_memory.md, the four stack primitives of spec/41_stack_ops.md, raising a fault
(spec/60_exceptions.md R184), and the two services behind `trap` (spec/45_trap.md). -/

namespace Sys2Proof.Machine

/-! ## Memory bytes -/

/-- What an address that no load and no store has written reads as (R22, R23). -/
def Memory.unlisted : Byte := 0

/-- The byte at an address. -/
def Memory.read : Memory → Nat → Byte
  | [], _ => Memory.unlisted
  | (k, b) :: rest, a => if k = a then b else Memory.read rest a

/-- List the byte `v` at `a`, keeping the addresses in rising order. -/
def Memory.insertByte : Memory → Nat → Byte → Memory
  | [], a, v => [(a, v)]
  | (k, b) :: rest, a, v =>
    if a < k then (a, v) :: (k, b) :: rest
    else if a = k then (a, v) :: rest
    else (k, b) :: Memory.insertByte rest a v

/-- Write one byte, keeping the canonical form: an address that holds what an unlisted one reads
as is not listed. -/
def Memory.write (m : Memory) (a : Nat) (v : Byte) : Memory :=
  if v = Memory.unlisted then m.filter (fun c => c.1 ≠ a) else Memory.insertByte m a v

/-- The canonical form: addresses strictly rising and inside the memory, no listed byte equal to
what an unlisted address reads as. -/
abbrev Memory.wf (m : Memory) : Prop :=
  m.Pairwise (fun c d => c.1 < d.1) ∧ ∀ c ∈ m, c.1 < Config.memBytes ∧ c.2 ≠ Memory.unlisted

/-- The bytes at `a`, `a + 1`, ... of the array, `n` of them or as many as lie inside it. -/
def Memory.bytesFrom (m : Memory) (a : Nat) : Nat → List Byte
  | 0 => []
  | n + 1 => if a < Config.memBytes then Memory.read m a :: Memory.bytesFrom m (a + 1) n else []

/-- Write bytes at `a`, `a + 1`, ...; a byte that would lie outside the array is dropped. -/
def Memory.placeBytes (m : Memory) (a : Nat) : List Byte → Memory
  | [] => m
  | b :: bs =>
    if a < Config.memBytes then Memory.placeBytes (Memory.write m a b) (a + 1) bs else m

/-- The value of the bytes an access of a width covers, little-endian and zero-extended to a Word
(R33). -/
def Memory.readWidth (m : Memory) (a : Nat) : Width → Word
  | .byte => (Memory.read m a).setWidth 32
  | .short => (joinShort (Memory.read m a) (Memory.read m (a + 1))).setWidth 32
  | .word =>
    joinWord (Memory.read m a) (Memory.read m (a + 1)) (Memory.read m (a + 2))
      (Memory.read m (a + 3))

/-- Write the low bytes of a Word over the bytes an access of a width covers, little-endian (R34). -/
def Memory.writeWidth (m : Memory) (a : Nat) (v : Word) : Width → Memory
  | .byte => Memory.write m a (byteAt v 0)
  | .short => Memory.write (Memory.write m a (byteAt v 0)) (a + 1) (byteAt v 1)
  | .word =>
    Memory.write
      (Memory.write
        (Memory.write (Memory.write m a (byteAt v 0)) (a + 1) (byteAt v 1)) (a + 2) (byteAt v 2))
      (a + 3) (byteAt v 3)

/-! ## Stacks -/

/-- The Words on a stack, TOP FIRST: the sequence of R12 read from its end. -/
def Stack.words (st : Stack) : List Word := (st.slots.toList.take st.ptr.val).reverse

/-- Write a Word in the slot at the pointer and move the pointer up; nothing when full (R90, R92). -/
def Stack.push (st : Stack) (v : Word) : Option Stack :=
  if h : st.ptr.val < Config.stackWords then
    some { slots := st.slots.set st.ptr.val v h, ptr := ⟨st.ptr.val + 1, Nat.succ_lt_succ h⟩ }
  else none

/-- Move the pointer down and give the Word in the slot it leaves, which is not cleared; nothing
when empty (R91, R93). -/
def Stack.pop (st : Stack) : Option (Word × Stack) :=
  if h : 0 < st.ptr.val then
    have below : st.ptr.val - 1 < Config.stackWords := by have := st.ptr.isLt; omega
    some (st.slots[st.ptr.val - 1], { st with ptr := ⟨st.ptr.val - 1, Nat.lt_succ_of_lt below⟩ })
  else none

/-! ## Raising a fault -/

/-- The one table of cause codes: the place of the cause in R180's list (the spec's decision D2). -/
def causeCode : Cause → BitVec 3
  | .divByZero => 0
  | .wstUnderflow => 1
  | .wstOverflow => 2
  | .rstUnderflow => 3
  | .rstOverflow => 4
  | .memoryAccessError => 5
  | .invalidInstruction => 6
  | .invalidTrap => 7

/-- `raise c` (R184): latch the cause and stop the core. Nothing else changes: no state is saved and
`pc` is not redirected (R185, R187), and what the instruction did before stands. There is no return
from a fault (R189); only reset leaves `faulted` (R78). In R70's data flow this is "raising
Interrupts on violation". -/
def raise (c : Cause) (s : State) : State :=
  { s with faultCause := causeCode c, runState := .faulted }

/-- What a primitive answers: a value and the state after it, or the first `raise` reached with the
state as it stood there (R183, R184). -/
inductive Res (α : Type) where
  | ok (v : α) (s : State)
  | raised (c : Cause) (s : State)
deriving DecidableEq, Repr

/-- Do `k` next, unless a `raise` has ended the instruction (R76, R184). -/
def Res.andThen {α β : Type} (x : Res α) (k : α → State → Res β) : Res β :=
  match x with
  | .ok v s => k v s
  | .raised c s => .raised c s

/-- What a meaning answers. -/
abbrev Answer := Host.Outcome State Fault Refusal

/-- The end of an instruction: the state it leaves, faulted if it raised (R77, R184). -/
def finish (x : Res Unit) : Answer :=
  match x with
  | .ok _ s => .next s
  | .raised c s => .next (raise c s)

/-! ## The primitives -/

/-- `WPush(v)` (R90). -/
def wPush (v : Word) (s : State) : Res Unit :=
  match s.wst.push v with
  | some st => .ok () { s with wst := st }
  | none => .raised .wstOverflow s

/-- `WPop()` (R91). -/
def wPop (s : State) : Res Word :=
  match s.wst.pop with
  | some (v, st) => .ok v { s with wst := st }
  | none => .raised .wstUnderflow s

/-- `RPush(v)` (R92). -/
def rPush (v : Word) (s : State) : Res Unit :=
  match s.rst.push v with
  | some st => .ok () { s with rst := st }
  | none => .raised .rstOverflow s

/-- `RPop()` (R93). -/
def rPop (s : State) : Res Word :=
  match s.rst.pop with
  | some (v, st) => .ok v { s with rst := st }
  | none => .raised .rstUnderflow s

/-- `MemRead(addr, n)` (R33). The bound is checked on the whole access without wrap (R35); no
alignment is asked for (R36). -/
def memRead (addr : Word) (w : Width) (s : State) : Res Word :=
  if addr.toNat + w.bytes > Config.memBytes then .raised .memoryAccessError s
  else .ok (s.mem.readWidth addr.toNat w) s

/-- `MemWrite(addr, n, v)` (R34). A write that fails the bound check writes no byte. -/
def memWrite (addr : Word) (w : Width) (v : Word) (s : State) : Res Unit :=
  if addr.toNat + w.bytes > Config.memBytes then .raised .memoryAccessError s
  else .ok () { s with mem := s.mem.writeWidth addr.toNat v w }

/-- `pc <- v` (R15): any Word is accepted (R117). -/
def setPc (v : Word) (s : State) : Res Unit := .ok () { s with pc := v }

/-- `pc <- pc + n`, the sequential advance of the fetch and of `lit` (R15). -/
def advance (n : Nat) (s : State) : State := { s with pc := s.pc + BitVec.ofNat 32 n }

/-- `raise InvalidInstruction` at the point where an instruction uses a size it does not admit
(R60). -/
def raiseInvalid {α : Type} (s : State) : Res α := .raised .invalidInstruction s

/-- `Halt(status)` (R171). -/
def halt (status : Word) (s : State) : Res Unit :=
  .ok () { s with exitStatus := status, runState := .halted }

/-- `Putc(ch)` (R172): the whole Word goes to the sink, which is always ready. -/
def putc (ch : Word) (s : State) : Res Unit := .ok () { s with out := s.out ++ [ch] }

end Sys2Proof.Machine
end

