-- ==== Sys2Proof/Machine/Operands.lean ====
section
/-! DEFINITION. The operand forms: a control-transfer target (spec/42_control_flow.md R116), the
effective address of `fetch` and `store` (spec/44_memory_access.md R162), and the width a size field
must name. Every other operand is a pop or the immediate in the instruction (R57). In both address
forms `pc` is the value after the instruction byte, the instruction's address plus 1 (R53). -/

namespace Sys2Proof.Machine

/-- `Target(t, rel)` (R116): absolute, or added to `pc` modulo `2 ^ 32`. -/
def target (t : Word) (rel : Bool) (s : State) : Word := if rel then s.pc + t else t

/-- `EA(x, rel)` (R162): the popped address, or that plus `pc` modulo `2 ^ 32`. -/
def effAddr (x : Word) (rel : Bool) (s : State) : Word := if rel then x + s.pc else x

/-- The width of an access, or `InvalidInstruction` for size field `11` (R60). -/
def needWidth (size : Option Width) (s : State) : Res Width :=
  match size with
  | some w => .ok w s
  | none => raiseInvalid s

end Sys2Proof.Machine
end

