-- ==== Sys2Proof/Machine/ControlFlow.lean ====
section
/-! DEFINITION. The six control-flow instructions (spec/42_control_flow.md). `pc` is the
instruction's address plus 1 when a meaning begins. A target is not checked when it is written
(R117), and a flag is popped before the target under it, both whether or not the transfer is taken
(R120). -/

namespace Sys2Proof.Machine

/-- `call` (R110): the return address is pushed before the target is popped. -/
def execCall (rel : Bool) (s : State) : Answer :=
  finish <| (rPush s.pc s).andThen fun _ s =>
    (wPop s).andThen fun t s => setPc (target t rel s) s

/-- `ccall` (R111): both pops come first, and the return address is pushed only if the flag is
true. -/
def execCcall (rel : Bool) (s : State) : Answer :=
  finish <| (wPop s).andThen fun f s =>
    (wPop s).andThen fun t s =>
    if flagTrue f then
      (rPush s.pc s).andThen fun _ s => setPc (target t rel s) s
    else .ok () s

/-- `ret` (R112): the popped Word becomes `pc`, always absolute. -/
def execRet (s : State) : Answer :=
  finish <| (rPop s).andThen fun r s => setPc r s

/-- `cret` (R113): the return stack is touched only if the flag is true. -/
def execCret (s : State) : Answer :=
  finish <| (wPop s).andThen fun f s =>
    if flagTrue f then (rPop s).andThen fun r s => setPc r s
    else .ok () s

/-- `jmp` (R114). -/
def execJmp (rel : Bool) (s : State) : Answer :=
  finish <| (wPop s).andThen fun t s => setPc (target t rel s) s

/-- `cjmp` (R115). -/
def execCjmp (rel : Bool) (s : State) : Answer :=
  finish <| (wPop s).andThen fun f s =>
    (wPop s).andThen fun t s =>
    if flagTrue f then setPc (target t rel s) s
    else .ok () s

end Sys2Proof.Machine
end

