-- ==== Sys2Proof/Machine/Alu.lean ====
section
/-! DEFINITION. The functions of the `alu_unit` on Words (spec/43_literal_alu.md R144). Each takes
the Word under the top first and the top second (R145). -/

namespace Sys2Proof.Machine

/-- R131. -/
def aluEq (a b : Word) : Word := flagWord (a == b)

/-- R132. -/
def aluNeq (a b : Word) : Word := flagWord (a != b)

/-- Unsigned (R133). -/
def aluLt (a b : Word) : Word := flagWord (a.ult b)

/-- Unsigned (R134). -/
def aluGt (a b : Word) : Word := flagWord (b.ult a)

/-- R135. -/
def aluAnd (a b : Word) : Word := a &&& b

/-- R136. -/
def aluOr (a b : Word) : Word := a ||| b

/-- R137. -/
def aluXor (a b : Word) : Word := a ^^^ b

/-- R138: the signed amount selects the direction, both shifts are logical, and a magnitude of 32 or
more leaves no bit. -/
def aluShift (a sb : Word) : Word :=
  if 0 ≤ sb.toInt then
    if 32 ≤ sb.toInt.toNat then 0 else a <<< sb.toInt.toNat
  else
    if 32 ≤ (-sb.toInt).toNat then 0 else a >>> (-sb.toInt).toNat

/-- R139: the sum wraps silently. -/
def aluAdd (a b : Word) : Word := a + b

/-- R140: the top is subtracted from the Word under it; the difference wraps silently. -/
def aluSub (a b : Word) : Word := a - b

/-- R141: the low Word of the product. -/
def aluMul (a b : Word) : Word := a * b

/-- The unsigned quotient for a divisor that is not 0 (R142). -/
def aluQuot (a b : Word) : Word := a / b

/-- The unsigned remainder for a divisor that is not 0 (R142). -/
def aluRem (a b : Word) : Word := a % b

/-- The low byte with its top bit copied into all higher bits; higher bits of the operand are
ignored (R143). -/
def aluSextByte (b : Word) : Word := (byteAt b 0).signExtend 32

/-- The low 16 bits with their top bit copied into all higher bits (R143). -/
def aluSextShort (b : Word) : Word := (joinShort (byteAt b 0) (byteAt b 1)).signExtend 32

end Sys2Proof.Machine
end

