-- ==== Sys2Proof/Machine/LiteralAlu.lean ====
section
/-! DEFINITION. The literal, compare, logic, shift, arithmetic and sign-extension instructions
(spec/43_literal_alu.md). -/

namespace Sys2Proof.Machine

/-! ## Literal (R130)

The decoder has read the immediate (`Sys2Proof/Machine/Fetch.lean` raises `MemoryAccessError` where
it runs past the end of memory), so what is left is the push and the advance of `pc`. -/

/-- Push an immediate that took `n` bytes, then move `pc` past it; on overflow `pc` has not moved. -/
def pushLiteral (v : Word) (n : Nat) (s : State) : Res Unit :=
  (wPush v s).andThen fun _ s => .ok () (advance n s)

/-- `lit.w` (R130). -/
def execLitW (imm : BitVec 32) (s : State) : Answer := finish (pushLiteral imm 4 s)

/-- `lit.b` (R130): zero-extended. -/
def execLitB (imm : BitVec 8) (s : State) : Answer := finish (pushLiteral (imm.setWidth 32) 1 s)

/-- `lit.s` (R130): zero-extended. -/
def execLitS (imm : BitVec 16) (s : State) : Answer := finish (pushLiteral (imm.setWidth 32) 2 s)

/-- `lit.x` (R130, R60): `InvalidInstruction` before anything else. -/
def execLitX (s : State) : Answer := finish (raiseInvalid s)

/-! ## Two-operand instructions (R145) -/

/-- `Binary(f)` (R145): pop `b`, pop `a`, push `f a b`. -/
def binary (f : Word → Word → Word) (s : State) : Res Unit :=
  (wPop s).andThen fun b s =>
    (wPop s).andThen fun a s => wPush (f a b) s

/-- `eq` (R131). -/
def execEq (s : State) : Answer := finish (binary aluEq s)

/-- `neq` (R132). -/
def execNeq (s : State) : Answer := finish (binary aluNeq s)

/-- `lt` (R133). -/
def execLt (s : State) : Answer := finish (binary aluLt s)

/-- `gt` (R134). -/
def execGt (s : State) : Answer := finish (binary aluGt s)

/-- `and` (R135). -/
def execAnd (s : State) : Answer := finish (binary aluAnd s)

/-- `or` (R136). -/
def execOr (s : State) : Answer := finish (binary aluOr s)

/-- `xor` (R137). -/
def execXor (s : State) : Answer := finish (binary aluXor s)

/-- `shift` (R138): the signed amount is on top. -/
def execShift (s : State) : Answer := finish (binary aluShift s)

/-- `add` (R139). -/
def execAdd (s : State) : Answer := finish (binary aluAdd s)

/-- `sub` (R140): second from the top minus the top. -/
def execSub (s : State) : Answer := finish (binary aluSub s)

/-- `mul` (R141). -/
def execMul (s : State) : Answer := finish (binary aluMul s)

/-- `divmod` (R142): a divisor of 0 raises `DivByZero` before the dividend is popped (conflict C1);
otherwise the remainder is pushed, then the quotient. -/
def execDivmod (s : State) : Answer :=
  finish <| (wPop s).andThen fun b s =>
    if b = 0 then .raised .divByZero s
    else
      (wPop s).andThen fun a s =>
      (wPush (aluRem a b) s).andThen fun _ s => wPush (aluQuot a b) s

/-! ## Sign extension (R143) -/

/-- The pseudocode of `sext` for a decoded size field: the pop comes before the size is looked at. -/
def signExtendTop (size : Option Width) (s : State) : Res Unit :=
  (wPop s).andThen fun b s =>
    match size with
    | some .byte => wPush (aluSextByte b) s
    | some .short => wPush (aluSextShort b) s
    | some .word => raiseInvalid s
    | none => raiseInvalid s

/-- `sext.w` (R143, R60): illegal. -/
def execSextW (s : State) : Answer := finish (signExtendTop (some .word) s)

/-- `sext.b` (R143). -/
def execSextB (s : State) : Answer := finish (signExtendTop (some .byte) s)

/-- `sext.s` (R143). -/
def execSextS (s : State) : Answer := finish (signExtendTop (some .short) s)

/-- `sext.x` (R143, R60): illegal. -/
def execSextX (s : State) : Answer := finish (signExtendTop none s)

end Sys2Proof.Machine
end

