-- ==== Sys2Proof/Machine/MemoryAccess.lean ====
section
/-! DEFINITION. The two data-memory instructions, `fetch` and `store`
(spec/44_memory_access.md). -/

namespace Sys2Proof.Machine

/-- The pseudocode of `fetch` (R160) for a decoded size field. -/
def loadForm (size : Option Width) (rel : Bool) (s : State) : Res Unit :=
  (wPop s).andThen fun x s =>
    (needWidth size s).andThen fun w s =>
    (memRead (effAddr x rel s) w s).andThen fun v s => wPush v s

/-- The pseudocode of `store` (R161) for a decoded size field: the address is on top of the value,
and both are popped before the size is used. -/
def storeForm (size : Option Width) (rel : Bool) (s : State) : Res Unit :=
  (wPop s).andThen fun x s =>
    (wPop s).andThen fun a s =>
    (needWidth size s).andThen fun w s => memWrite (effAddr x rel s) w a s

/-- `fetch.w` (R160). -/
def execFetchW (rel : Bool) (s : State) : Answer := finish (loadForm (some .word) rel s)

/-- `fetch.b` (R160). -/
def execFetchB (rel : Bool) (s : State) : Answer := finish (loadForm (some .byte) rel s)

/-- `fetch.s` (R160). -/
def execFetchS (rel : Bool) (s : State) : Answer := finish (loadForm (some .short) rel s)

/-- `fetch.x` (R160, R60): illegal, after the pop. -/
def execFetchX (rel : Bool) (s : State) : Answer := finish (loadForm none rel s)

/-- `store.w` (R161). -/
def execStoreW (rel : Bool) (s : State) : Answer := finish (storeForm (some .word) rel s)

/-- `store.b` (R161). -/
def execStoreB (rel : Bool) (s : State) : Answer := finish (storeForm (some .byte) rel s)

/-- `store.s` (R161). -/
def execStoreS (rel : Bool) (s : State) : Answer := finish (storeForm (some .short) rel s)

/-- `store.x` (R161, R60): illegal, after both pops. -/
def execStoreX (rel : Bool) (s : State) : Answer := finish (storeForm none rel s)

end Sys2Proof.Machine
end

