-- ==== Sys2Proof/Machine/StackInstrs.lean ====
section
/-! DEFINITION. The nine instructions that only move Words on the stacks (spec/41_stack_ops.md
section 2). Each pops all its inputs, top first, then pushes its outputs, bottom first. -/

namespace Sys2Proof.Machine

/-- `nop` (R94): nothing beyond the `pc` increment of the fetch. -/
def execNop (s : State) : Answer := finish (.ok () s)

/-- `dup` (R95): `(a) -> (a, a)`. -/
def execDup (s : State) : Answer :=
  finish <| (wPop s).andThen fun a s =>
    (wPush a s).andThen fun _ s => wPush a s

/-- `drop` (R96): `(a) -> ( )`. -/
def execDrop (s : State) : Answer :=
  finish <| (wPop s).andThen fun _ s => .ok () s

/-- `swap` (R97): `(a, b) -> (b, a)`. -/
def execSwap (s : State) : Answer :=
  finish <| (wPop s).andThen fun b s =>
    (wPop s).andThen fun a s =>
    (wPush b s).andThen fun _ s => wPush a s

/-- `over` (R98): `(a, b) -> (a, b, a)`. -/
def execOver (s : State) : Answer :=
  finish <| (wPop s).andThen fun b s =>
    (wPop s).andThen fun a s =>
    (wPush a s).andThen fun _ s =>
    (wPush b s).andThen fun _ s => wPush a s

/-- `rot` (R99): `(a, b, c) -> (b, c, a)`. -/
def execRot (s : State) : Answer :=
  finish <| (wPop s).andThen fun c s =>
    (wPop s).andThen fun b s =>
    (wPop s).andThen fun a s =>
    (wPush b s).andThen fun _ s =>
    (wPush c s).andThen fun _ s => wPush a s

/-- `nip` (R100): `(a, b) -> (b)`. -/
def execNip (s : State) : Answer :=
  finish <| (wPop s).andThen fun b s =>
    (wPop s).andThen fun _ s => wPush b s

/-- `wtr` (R101): pop working, push onto return. -/
def execWtr (s : State) : Answer :=
  finish <| (wPop s).andThen fun a s => rPush a s

/-- `rtw` (R102): pop return, push onto working. -/
def execRtw (s : State) : Answer :=
  finish <| (rPop s).andThen fun a s => wPush a s

end Sys2Proof.Machine
end

