-- ==== Sys2Proof/Machine/Trap.lean ====
section
/-! DEFINITION. The one system instruction, `trap` (spec/45_trap.md). -/

namespace Sys2Proof.Machine

/-- `trap` (R170), "the sole channel to host collaborators" (R70): the selector is compared as a
whole Word; 0 halts (R171), 1 emits a character (R172), any other raises `InvalidTrap` with only
the selector popped (R173). A service whose argument is missing does not happen. -/
def execTrap (s : State) : Answer :=
  finish <| (wPop s).andThen fun sel s =>
    if sel = 0 then (wPop s).andThen fun status s => halt status s
    else if sel = 1 then (wPop s).andThen fun ch s => putc ch s
    else .raised .invalidTrap s

end Sys2Proof.Machine
end

