-- ==== Sys2Proof/Machine/Dispatch.lean ====
section
/-! DEFINITION. The dispatch of spec/40_execution_cycle.md R75: one arm for each instruction, each
one call of that instruction's meaning. -/

namespace Sys2Proof.Machine

def exec (i : Instr) (s : State) : Host.Outcome State Fault Refusal :=
  match i with
  | .nop => Sys2Proof.Machine.execNop s
  | .litW imm => Sys2Proof.Machine.execLitW imm s
  | .litB imm => Sys2Proof.Machine.execLitB imm s
  | .litS imm => Sys2Proof.Machine.execLitS imm s
  | .litX => Sys2Proof.Machine.execLitX s
  | .dup => Sys2Proof.Machine.execDup s
  | .drop => Sys2Proof.Machine.execDrop s
  | .swap => Sys2Proof.Machine.execSwap s
  | .overOp => Sys2Proof.Machine.execOver s
  | .rot => Sys2Proof.Machine.execRot s
  | .nip => Sys2Proof.Machine.execNip s
  | .call rel => Sys2Proof.Machine.execCall rel s
  | .ccall rel => Sys2Proof.Machine.execCcall rel s
  | .ret => Sys2Proof.Machine.execRet s
  | .cret => Sys2Proof.Machine.execCret s
  | .jmp rel => Sys2Proof.Machine.execJmp rel s
  | .cjmp rel => Sys2Proof.Machine.execCjmp rel s
  | .wtr => Sys2Proof.Machine.execWtr s
  | .rtw => Sys2Proof.Machine.execRtw s
  | .eq => Sys2Proof.Machine.execEq s
  | .neq => Sys2Proof.Machine.execNeq s
  | .lt => Sys2Proof.Machine.execLt s
  | .gt => Sys2Proof.Machine.execGt s
  | .and => Sys2Proof.Machine.execAnd s
  | .or => Sys2Proof.Machine.execOr s
  | .xor => Sys2Proof.Machine.execXor s
  | .shift => Sys2Proof.Machine.execShift s
  | .add => Sys2Proof.Machine.execAdd s
  | .sub => Sys2Proof.Machine.execSub s
  | .mul => Sys2Proof.Machine.execMul s
  | .divmod => Sys2Proof.Machine.execDivmod s
  | .fetchW rel => Sys2Proof.Machine.execFetchW rel s
  | .fetchB rel => Sys2Proof.Machine.execFetchB rel s
  | .fetchS rel => Sys2Proof.Machine.execFetchS rel s
  | .fetchX rel => Sys2Proof.Machine.execFetchX rel s
  | .storeW rel => Sys2Proof.Machine.execStoreW rel s
  | .storeB rel => Sys2Proof.Machine.execStoreB rel s
  | .storeS rel => Sys2Proof.Machine.execStoreS rel s
  | .storeX rel => Sys2Proof.Machine.execStoreX rel s
  | .sextW => Sys2Proof.Machine.execSextW s
  | .sextB => Sys2Proof.Machine.execSextB s
  | .sextS => Sys2Proof.Machine.execSextS s
  | .sextX => Sys2Proof.Machine.execSextX s
  | .trap => Sys2Proof.Machine.execTrap s

end Sys2Proof.Machine
end

