-- ==== Sys2Proof/Machine/Fetch.lean ====
section
/-! DEFINITION. Fetching and decoding the instruction at `pc` (spec/40_execution_cycle.md R73, R74)
and placing an instruction there. -/

namespace Sys2Proof.Machine

/-- The bytes from `pc` on that lie in the memory, at most the longest instruction's length. They
are the bytes as they stand now: a store is seen by the very next fetch (R44). -/
def fetchBytes (s : State) : List Byte := s.mem.bytesFrom s.pc.toNat Config.maxLength

/-- The fetch of the instruction at `pc`.
* No byte at `pc`: `MemoryAccessError`, and `pc` is not incremented (R73).
* A `lit` whose immediate runs past the end of memory: `MemoryAccessError` with `pc` after the
  instruction byte (R130).
* The default arm of R75, which no byte reaches: `InvalidInstruction` with `pc` after the byte.
* Otherwise the instruction, with `pc` after the instruction byte (R73). -/
def fetchInstr (s : State) : Res Instr :=
  match decode (fetchBytes s) with
  | .ok (i, _) => .ok i (advance 1 s)
  | .error .noInstructionByte => .raised .memoryAccessError s
  | .error .immediateCutShort => .raised .memoryAccessError (advance 1 s)
  | .error .noHandler => raiseInvalid (advance 1 s)

/-- The state with these bytes in memory from `pc` on. -/
def placeAtPc (bytes : List Byte) (s : State) : State :=
  { s with mem := s.mem.placeBytes s.pc.toNat bytes }

end Sys2Proof.Machine
end

