-- ==== Sys2Proof/Machine/Step.lean ====
section
/-! DEFINITION. One granted step (spec/40_execution_cycle.md R72). -/

namespace Sys2Proof.Machine

/-- `Step()` (R72), one turn of the Execution Loop of R70's data flow: a stopped core does nothing
(R80); a running core fetches one instruction and executes it, or faults in the fetch. -/
def step (s : State) : Host.Outcome State Fault Refusal :=
  match s.runState with
  | .halted => .next s
  | .faulted => .next s
  | .running =>
    match fetchInstr s with
    | .ok i t => exec i t
    | .raised c t => .next (raise c t)

/-- `s` with the instruction whose bits are `w` stored where a running core at `pc` fetches next:
its bytes from `pc` on, nothing else changed. It stands for the host's load (R212). -/
def State.withFetchWord (s : State) (nbits w : Nat) : State := placeAtPc (tableBytes nbits w) s

end Sys2Proof.Machine
end

