-- ==== Sys2Proof/Machine/HostPort.lean ====
section
/-! DEFINITION. The host: its moves, the phase of the contract they are limited by, and what it sees
(spec/40_execution_cycle.md R71, R81, R84; spec/70_reset_and_hazards.md R210 to R213). The host has
the three moves of R84 and no other; none reads or writes a stack or `pc`, and a load write exists
only before the first step and only as the next byte of the one image. -/

namespace Sys2Proof.Machine

/-! ## The contract between host and core -/

/-- A core in the hands of its host. Before the first step there is nothing but the image to vary: the
rest of the core is as reset left it (R212). The core has no such phase in its own state (R10). -/
inductive Session where
  /-- Between reset and the first step: the bytes of the image loaded so far, from address 0 up. -/
  | loading (image : List Byte)
  /-- From the first step on, stopped cores included. -/
  | stepping (core : State)
deriving DecidableEq, Repr

/-- The core of a session. Before the first step it is the launch state of R213: the reset state with
the bytes loaded so far at the addresses from 0 up. -/
def Session.core : Session → State
  | .loading image => { State.reset with mem := State.reset.mem.placeBytes 0 image }
  | .stepping core => core

/-- The session right after reset, with nothing loaded. -/
def Session.reset : Session := .loading []

/-- The events a host can cause (R71, R84), in R70's data flow: Boot, Load, then the Execution
Loop. -/
inductive HostMove where
  /-- `rst`: everything that was there is forgotten (R210). -/
  | reset
  /-- A load write: `mem[addr] <- data`. The 16-bit address cannot name a place outside the memory. -/
  | load (addr : BitVec 16) (data : Byte)
  /-- A step grant: one step (R72). -/
  | grant
deriving DecidableEq, Repr

/-- One move of the host. A load write is a move only before the first step and only as the next byte
of the one image, at the address after the bytes loaded so far. After the first step, whether the core
still runs or not, it is refused, and so is a reload, a repeated address or a gap: "the model gives the
host no such move" (R84, R213, U13). DEDUCED (log entry 14, safe): that D20's "bytes from address 0 up"
is the order of the writes. -/
def hostMove (move : HostMove) (x : Session) : Host.Outcome Session Fault Refusal :=
  match move with
  | .reset => .next Session.reset
  | .load addr data =>
    match x with
    | .loading image =>
      if addr.toNat = image.length then .next (.loading (image ++ [data]))
      else .refused .loadNotNextByte
    | .stepping _ => .refused .loadAfterFirstStep
  | .grant =>
    match step x.core with
    | .next t => .next (.stepping t)
    | .fault r => .fault r
    | .refused r => .refused r

/-- Moves in order, ending at the first that is no move. -/
def hostMoves (moves : List HostMove) (x : Session) : Host.Outcome Session Fault Refusal :=
  match moves with
  | [] => .next x
  | m :: rest =>
    match hostMove m x with
    | .next y => hostMoves rest y
    | .fault r => .fault r
    | .refused r => .refused r

/-! ## Load -/

/-- The load writes that copy an image to the addresses from `a` on (R212). -/
def loadMoves (a : Nat) (image : List Byte) : List HostMove :=
  match image with
  | [] => []
  | b :: rest => .load (BitVec.ofNat 16 a) b :: loadMoves (a + 1) rest

/-- Reset, then load an image at address 0 ("Boot initializes state", "Load copies a program
image", R70): the launch state of R213. An image longer than the memory is no launch of this
machine (U6). -/
def launch (image : List Byte) : Answer :=
  if Config.memBytes < image.length then .refused .imageTooLong
  else
    match hostMoves (loadMoves 0 image) Session.reset with
    | .next x => .next x.core
    | .fault r => .fault r
    | .refused r => .refused r

/-! ## Step grants -/

/-- `exec(vm, stepBudget)` (R81): at most `budget` steps, stopping early when the core does. -/
def execBudget (budget : Nat) (s : State) : Answer :=
  match budget with
  | 0 => .next s
  | n + 1 =>
    match s.runState with
    | .halted => .next s
    | .faulted => .next s
    | .running =>
      match step s with
      | .next t => execBudget n t
      | .fault r => .fault r
      | .refused r => .refused r

/-! ## What the ports show -/

/-- The 2-bit code on the `run_state` port; 3 never occurs (R18). -/
def runStateCode : RunState → BitVec 2
  | .running => 0
  | .halted => 1
  | .faulted => 2

/-- The cause whose code a 3-bit latch holds (R180). -/
def causeOfCode (code : BitVec 3) : Cause :=
  match code.toNat with
  | 0 => .divByZero
  | 1 => .wstUnderflow
  | 2 => .wstOverflow
  | 3 => .rstUnderflow
  | 4 => .rstOverflow
  | 5 => .memoryAccessError
  | 6 => .invalidInstruction
  | _ => .invalidTrap

/-- The tagged outcome of R77. -/
inductive RunOutcome where
  | continues
  | halted (status : Word)
  | fault (cause : Cause)
deriving DecidableEq, Repr

/-- The outcome the latches show (R77, R18). -/
def outcomeOf (s : State) : RunOutcome :=
  match s.runState with
  | .running => .continues
  | .halted => .halted s.exitStatus
  | .faulted => .fault (causeOfCode s.faultCause)

end Sys2Proof.Machine
end

