-- ==== Sys2Proof/WellFormed.lean ====
section
/-! DEFINITION. Which instructions are well formed: those whose encoding is legal
(spec/30_encoding.md R60, R62). An ill-formed instruction still decodes, encodes and runs: executing
it raises `InvalidInstruction` as its rule says. Non-canonical bytes are not refused: R61's
optional refusal is not taken. -/

namespace Sys2Proof

/-- The instruction is not one of the five illegal forms of R60. Every other field of an `Instr`
admits every value its type has. -/
def Instr.wellFormed : Instr → Bool
  | .litX => false
  | .fetchX _ => false
  | .storeX _ => false
  | .sextW => false
  | .sextX => false
  | .nop | .litW _ | .litB _ | .litS _ | .dup | .drop | .swap | .overOp | .rot | .nip => true
  | .call _ | .ccall _ | .ret | .cret | .jmp _ | .cjmp _ | .wtr | .rtw => true
  | .eq | .neq | .lt | .gt | .and | .or | .xor | .shift => true
  | .add | .sub | .mul | .divmod => true
  | .fetchW _ | .fetchB _ | .fetchS _ | .storeW _ | .storeB _ | .storeS _ => true
  | .sextB | .sextS | .trap => true

end Sys2Proof
end

