-- ==== Sys2Proof/Safety.lean ====
section
/-! DEFINITION. The terms claims use: the invariant, what a safe run is, the fault table of
spec/60_exceptions.md R181 and R183 written as the spec lists it, and names for the shapes a next
state can have. Nothing here is called by the machine. -/

namespace Sys2Proof.Machine

/-! ## The invariant -/

/-- A latch that the run state gives no meaning holds its reset value (R18: only a raise writes
`fault_cause`, only a halt writes `exit_status`, and a stopped core executes nothing more). -/
abbrev State.latchesQuiet (s : State) : Prop :=
  (s.runState ≠ .faulted → s.faultCause = 0) ∧ (s.runState ≠ .halted → s.exitStatus = 0)

/-- The memory has its canonical form and the latches are quiet. The range of the stack pointers
(R14) is in their type. -/
abbrev State.Inv (s : State) : Prop := s.mem.wf ∧ s.latchesQuiet

/-! ## The fault table (R181, R183) -/

/-- The byte address an access reaches, as a number: the popped Word, or its sum with `pc` modulo
`2 ^ 32` (R162). -/
def accessAddress (x : Word) (rel : Bool) (pc : Word) : Nat :=
  if rel then (x.toNat + pc.toNat) % 2 ^ 32 else x.toNat

/-- The row of `fetch`: stack empty, then size `11`, then out of bounds. -/
def loadCause (n : Option Nat) (rel : Bool) (s : State) : Option Cause :=
  match s.wst.words with
  | [] => some .wstUnderflow
  | x :: _ =>
    match n with
    | none => some .invalidInstruction
    | some n =>
      if accessAddress x rel s.pc + n > Config.memBytes then some .memoryAccessError else none

/-- The row of `store`: stack short, then size `11`, then out of bounds. -/
def storeCause (n : Option Nat) (rel : Bool) (s : State) : Option Cause :=
  match s.wst.words with
  | x :: _ :: _ =>
    match n with
    | none => some .invalidInstruction
    | some n =>
      if accessAddress x rel s.pc + n > Config.memBytes then some .memoryAccessError else none
  | _ => some .wstUnderflow

/-- `WstUnderflow` when the working stack holds fewer than `n` Words. -/
def needWords (n : Nat) (s : State) : Option Cause :=
  if s.wst.words.length < n then some .wstUnderflow else none

/-- The cause an instruction raises, if any, in a state whose `pc` is past the instruction byte:
R181's table with R183's priorities, on the Words the two stacks hold. -/
def faultCondition (i : Instr) (s : State) : Option Cause :=
  match i with
  | .nop => none
  | .litW _ | .litB _ | .litS _ =>
    if s.wst.words.length = 256 then some .wstOverflow else none
  | .litX => some .invalidInstruction
  | .dup =>
    if s.wst.words.length = 0 then some .wstUnderflow
    else if s.wst.words.length = 256 then some .wstOverflow else none
  | .drop => needWords 1 s
  | .swap => needWords 2 s
  | .overOp =>
    if s.wst.words.length < 2 then some .wstUnderflow
    else if s.wst.words.length = 256 then some .wstOverflow else none
  | .rot => needWords 3 s
  | .nip => needWords 2 s
  | .call _ =>
    if s.rst.words.length = 256 then some .rstOverflow else needWords 1 s
  | .ccall _ =>
    match s.wst.words with
    | f :: _ :: _ =>
      if f ≠ 0 ∧ s.rst.words.length = 256 then some .rstOverflow else none
    | _ => some .wstUnderflow
  | .ret => if s.rst.words.length = 0 then some .rstUnderflow else none
  | .cret =>
    match s.wst.words with
    | [] => some .wstUnderflow
    | f :: _ => if f ≠ 0 ∧ s.rst.words.length = 0 then some .rstUnderflow else none
  | .jmp _ => needWords 1 s
  | .cjmp _ => needWords 2 s
  | .wtr =>
    if s.wst.words.length = 0 then some .wstUnderflow
    else if s.rst.words.length = 256 then some .rstOverflow else none
  | .rtw =>
    if s.rst.words.length = 0 then some .rstUnderflow
    else if s.wst.words.length = 256 then some .wstOverflow else none
  | .eq | .neq | .lt | .gt | .and | .or | .xor | .shift | .add | .sub | .mul => needWords 2 s
  | .divmod =>
    match s.wst.words with
    | [] => some .wstUnderflow
    | b :: rest =>
      if b = 0 then some .divByZero
      else if rest.length = 0 then some .wstUnderflow else none
  | .fetchW rel => loadCause (some 4) rel s
  | .fetchB rel => loadCause (some 1) rel s
  | .fetchS rel => loadCause (some 2) rel s
  | .fetchX rel => loadCause none rel s
  | .storeW rel => storeCause (some 4) rel s
  | .storeB rel => storeCause (some 1) rel s
  | .storeS rel => storeCause (some 2) rel s
  | .storeX rel => storeCause none rel s
  | .sextB | .sextS => needWords 1 s
  | .sextW | .sextX =>
    if s.wst.words.length = 0 then some .wstUnderflow else some .invalidInstruction
  | .trap =>
    match s.wst.words with
    | [] => some .wstUnderflow
    | sel :: rest =>
      if sel ≠ 0 ∧ sel ≠ 1 then some .invalidTrap
      else if rest.length = 0 then some .wstUnderflow else none

/-- The number of immediate bytes an instruction byte announces: 4, 1 or 2 for `lit` with size `00`,
`01` or `10`, none for every other byte (R56, R58). -/
def immediateBytes (b : Byte) : Nat :=
  if b.toNat % 32 = 1 then
    (if b.toNat / 32 % 4 = 0 then 4 else if b.toNat / 32 % 4 = 1 then 1
      else if b.toNat / 32 % 4 = 2 then 2 else 0)
  else 0

/-- The cause a step of a running core raises, if any: the fetch out of memory first, then a `lit`
immediate past the end of memory, then the instruction's own row (R181, R183). -/
def stepCause (s : State) : Option Cause :=
  if Config.memBytes ≤ s.pc.toNat then some .memoryAccessError
  else if Config.memBytes < s.pc.toNat + 1 + immediateBytes (s.mem.read s.pc.toNat) then
    some .memoryAccessError
  else
    match decode (fetchBytes s) with
    | .ok (i, _) => faultCondition i (advance 1 s)
    | .error _ => none

/-- A state from which the next step does not fault (R196: decidable from the state). -/
def State.safe (s : State) : Prop := s.runState = .running → stepCause s = none

/-! ## Shapes of a next state

Each says everything: a field that is not named is as in `s`. A stack is described by the Words on
it, top first, since a slot at or above the pointer cannot be observed (R16). -/

/-- Only the working stack and `pc` may differ from `s`. -/
def Leaves (o : Answer) (s : State) (w : List Word) (pc : Word) : Prop :=
  ∃ st : Stack, st.words = w ∧ o = .next { s with wst := st, pc := pc }

/-- Only the return stack and `pc` may differ from `s`. -/
def LeavesReturn (o : Answer) (s : State) (r : List Word) (pc : Word) : Prop :=
  ∃ st : Stack, st.words = r ∧ o = .next { s with rst := st, pc := pc }

/-- Only the two stacks and `pc` may differ from `s`. -/
def LeavesBoth (o : Answer) (s : State) (w r : List Word) (pc : Word) : Prop :=
  ∃ ws rs : Stack, ws.words = w ∧ rs.words = r ∧
    o = .next { s with wst := ws, rst := rs, pc := pc }

/-- The core has stopped with this cause; only the two latches of R184 and the working stack may
differ from `s`. -/
def Faults (o : Answer) (c : Cause) (s : State) (w : List Word) : Prop :=
  ∃ st : Stack, st.words = w ∧
    o = .next { s with wst := st, runState := .faulted, faultCause := causeCode c }

/-- The core has stopped with this cause; only the two latches of R184 and the two stacks may differ
from `s`. -/
def FaultsBoth (o : Answer) (c : Cause) (s : State) (w r : List Word) : Prop :=
  ∃ ws rs : Stack, ws.words = w ∧ rs.words = r ∧
    o = .next { s with wst := ws, rst := rs, runState := .faulted, faultCause := causeCode c }

/-- The core has stopped with this cause and nothing but the two latches of R184 differs. -/
def FaultsAtOnce (o : Answer) (c : Cause) (s : State) : Prop :=
  o = .next { s with runState := .faulted, faultCause := causeCode c }

/-! ## Numbers for memory, bytes and control -/

/-- The number that `n` bytes from address `a` make, the byte at the lowest address the least
significant (R32). -/
def littleEndian (m : Memory) (a : Nat) : Nat → Nat
  | 0 => 0
  | n + 1 => (Memory.read m a).toNat + 256 * littleEndian m (a + 1) n

/-- The memory after a write of the low `n` bytes of `v` at `a`: byte `k` of `v` at `a + k`, every
other byte as in `m` (R34). -/
def WrittenAt (m m' : Memory) (a n : Nat) (v : Word) : Prop :=
  ∀ b, Memory.read m' b =
    if a ≤ b ∧ b < a + n then BitVec.ofNat 8 (v.toNat / 256 ^ (b - a)) else Memory.read m b

/-- A byte with the fields its opcode does not use set to zero (R55, R61). -/
def canonicalByte (b : Byte) : Byte :=
  let op := b.toNat % 32
  let size := if op = 1 ∨ op = 28 ∨ op = 29 ∨ op = 30 then b.toNat / 32 % 4 else 0
  let rel :=
    if op = 8 ∨ op = 9 ∨ op = 12 ∨ op = 13 ∨ op = 28 ∨ op = 29 then b.toNat / 128 else 0
  BitVec.ofNat 8 (rel * 128 + size * 32 + op)

/-- The ten illegal byte values of R60. -/
def illegalBytes : List Nat :=
  [0x1E, 0x9E, 0x7E, 0xFE, 0x61, 0xE1, 0x7C, 0xFC, 0x7D, 0xFD]

/-! ## Runs of pushes and pops (R103) -/

/-- Push the Words of a list in order. -/
def pushAll (push : Word → State → Res Unit) (vs : List Word) (s : State) : Res Unit :=
  match vs with
  | [] => .ok () s
  | v :: rest => (push v s).andThen fun _ s => pushAll push rest s

/-- Pop `n` Words, the first popped first in the list. -/
def popMany (pop : State → Res Word) (n : Nat) (s : State) : Res (List Word) :=
  match n with
  | 0 => .ok [] s
  | n + 1 => (pop s).andThen fun v s => (popMany pop n s).andThen fun vs s => .ok (v :: vs) s

/-! ## Observation -/

/-- Two stacks hold the same Words; the slots above the pointer may differ (R16). -/
def Stack.sameWords (a b : Stack) : Prop := a.words = b.words

/-- Two states differ at most in stack slots at or above a pointer. -/
def State.sameView (s t : State) : Prop :=
  s.mem = t.mem ∧ s.wst.sameWords t.wst ∧ s.rst.sameWords t.rst ∧ s.pc = t.pc ∧
    s.runState = t.runState ∧ s.faultCause = t.faultCause ∧ s.exitStatus = t.exitStatus ∧
    s.out = t.out

end Sys2Proof.Machine
end

