-- ==== Sys2Proof/Certificates/Slice0/Obligations.lean ====
section
/-! DEFINITION. The statements for the provers. Each docstring names what of spec/ it formalises: a
rule `R<n>`, or, where the statement is derived, the sections it rests on and those of the spec's own
decisions (spec/92_eei_decisions.md) that it depends on. Stacks are written top first:
`b :: a :: rest` is the spec's `(…, a, b)`. In a statement about `exec`, `s.pc` is the address after
the instruction byte, as in every instruction rule (spec/40_execution_cycle.md section 3). -/

open Sys2Proof Sys2Proof.Machine

/-! ## Reset and load -/

/-- Reset (spec/10_state.md section 9): every item of the state is zero or empty and the core runs; the
bytes an image does not cover stay 0. That the latches and `out` are state, with these values, is the
spec's own decision D11 and D15; the load is its decision D20. -/
def Obligations.ResetZeroesState : Prop :=
  (∀ a, State.reset.mem.read a = 0) ∧
  (∀ k : Fin 256, State.reset.wst.slots[k] = 0 ∧ State.reset.rst.slots[k] = 0) ∧
  State.reset.wst.words = [] ∧ State.reset.rst.words = [] ∧
  State.reset.wst.ptr.val = 0 ∧ State.reset.rst.ptr.val = 0 ∧ State.reset.pc = 0 ∧
  State.reset.runState = .running ∧ State.reset.faultCause = 0 ∧ State.reset.exitStatus = 0 ∧
  State.reset.out = [] ∧
  ∀ (image : List Byte) (a : Nat), image.length ≤ 65536 → image.length ≤ a →
    ∃ t, launch image = .next t ∧ t.mem.read a = 0

/-- Load (spec/70_reset_and_hazards.md section 2, with the spec's own decision D20): an image of at most
65536 bytes is at the addresses from 0 up, and the load changes nothing but the memory. -/
def Obligations.LoadPlacesImage : Prop :=
  ∀ image : List Byte, image.length ≤ 65536 →
    ∃ m : Memory, launch image = .next { State.reset with mem := m } ∧
      (∀ k (h : k < image.length), m.read k = image[k]) ∧
      (∀ a, image.length ≤ a → m.read a = 0)

/-! ## The stack primitives -/

/-- R90, R92: a push at 256 raises the stack's overflow and changes nothing; otherwise the Word is in
the slot at the pointer, the pointer is one more, and every other slot is as before. -/
def Obligations.PushWritesSlotAtPointer : Prop :=
  ∀ (v : Word) (s : State),
    (s.wst.ptr.val = 256 → wPush v s = .raised .wstOverflow s) ∧
    (s.wst.ptr.val < 256 → ∃ st : Stack, wPush v s = .ok () { s with wst := st } ∧
      st.words = v :: s.wst.words ∧ st.ptr.val = s.wst.ptr.val + 1 ∧
      ∀ k : Fin 256, st.slots[k] = if k.val = s.wst.ptr.val then v else s.wst.slots[k]) ∧
    (s.rst.ptr.val = 256 → rPush v s = .raised .rstOverflow s) ∧
    (s.rst.ptr.val < 256 → ∃ st : Stack, rPush v s = .ok () { s with rst := st } ∧
      st.words = v :: s.rst.words ∧ st.ptr.val = s.rst.ptr.val + 1 ∧
      ∀ k : Fin 256, st.slots[k] = if k.val = s.rst.ptr.val then v else s.rst.slots[k])

/-- R91, R93: a pop at 0 raises the stack's underflow and changes nothing; otherwise the pointer is
one less, the Word is the one in the slot now above it, and no slot changes. -/
def Obligations.PopReadsSlotBelowPointer : Prop :=
  ∀ s : State,
    (s.wst.ptr.val = 0 → wPop s = .raised .wstUnderflow s) ∧
    (0 < s.wst.ptr.val → ∃ (v : Word) (st : Stack), wPop s = .ok v { s with wst := st } ∧
      st.ptr.val + 1 = s.wst.ptr.val ∧ st.slots = s.wst.slots ∧
      s.wst.slots[st.ptr.val]? = some v ∧ s.wst.words = v :: st.words) ∧
    (s.rst.ptr.val = 0 → rPop s = .raised .rstUnderflow s) ∧
    (0 < s.rst.ptr.val → ∃ (v : Word) (st : Stack), rPop s = .ok v { s with rst := st } ∧
      st.ptr.val + 1 = s.rst.ptr.val ∧ st.slots = s.rst.slots ∧
      s.rst.slots[st.ptr.val]? = some v ∧ s.rst.words = v :: st.words)

/-- R103: pushes that fit followed by as many pops give the values in reverse order and the Words
that were there, on either stack and without touching the other; 256 pushes fit on an empty stack and
the 257th raises the overflow; a pop of an empty stack raises the underflow. -/
def Obligations.StacksAreLastInFirstOut : Prop :=
  (∀ (vs : List Word) (s : State), s.wst.words.length + vs.length ≤ 256 →
    ∃ pushed popped : Stack, pushAll wPush vs s = .ok () { s with wst := pushed } ∧
      popMany wPop vs.length { s with wst := pushed } = .ok vs.reverse { s with wst := popped } ∧
      popped.words = s.wst.words) ∧
  (∀ (vs : List Word) (s : State), s.rst.words.length + vs.length ≤ 256 →
    ∃ pushed popped : Stack, pushAll rPush vs s = .ok () { s with rst := pushed } ∧
      popMany rPop vs.length { s with rst := pushed } = .ok vs.reverse { s with rst := popped } ∧
      popped.words = s.rst.words) ∧
  (∀ (vs : List Word) (v : Word) (s : State), vs.length = 256 →
    (s.wst.words = [] → ∃ st : Stack, pushAll wPush (vs ++ [v]) s =
      .raised .wstOverflow { s with wst := st } ∧ st.words = vs.reverse) ∧
    (s.rst.words = [] → ∃ st : Stack, pushAll rPush (vs ++ [v]) s =
      .raised .rstOverflow { s with rst := st } ∧ st.words = vs.reverse)) ∧
  (∀ s : State, (s.wst.words = [] → wPop s = .raised .wstUnderflow s) ∧
    (s.rst.words = [] → rPop s = .raised .rstUnderflow s))

/-! ## Memory -/

/-- R33: a read of `n` bytes fails exactly when `addr + n > 65536`, computed without wrap, and
otherwise gives the bytes as a little-endian number, zero-extended, and changes nothing. -/
def Obligations.ReadIsCheckedLittleEndian : Prop :=
  ∀ (addr : Word) (w : Width) (s : State),
    (65536 < addr.toNat + w.bytes → memRead addr w s = .raised .memoryAccessError s) ∧
    (addr.toNat + w.bytes ≤ 65536 → ∃ v : Word, memRead addr w s = .ok v s ∧
      v.toNat = littleEndian s.mem addr.toNat w.bytes)

/-- R34: a write of `n` bytes fails exactly when `addr + n > 65536` and then writes nothing, and
otherwise writes byte `k` of the Word at `addr + k` and no other byte. -/
def Obligations.WriteIsCheckedLittleEndian : Prop :=
  ∀ (addr : Word) (w : Width) (v : Word) (s : State),
    (65536 < addr.toNat + w.bytes → memWrite addr w v s = .raised .memoryAccessError s) ∧
    (addr.toNat + w.bytes ≤ 65536 → ∃ m : Memory, memWrite addr w v s = .ok () { s with mem := m } ∧
      WrittenAt s.mem m addr.toNat w.bytes v)

/-- Mixed widths (spec/20_memory.md section 2, which the spec derives from its read and write rules):
after a 4-byte write at `A`, a 1-byte read at `A + k` gives bits `8k+7 : 8k` of the Word and a 2-byte
read at `A + k` gives bits `8k+15 : 8k`. -/
def Obligations.NarrowReadsSeeBytesOfWord : Prop :=
  ∀ (addr v : Word) (s : State), addr.toNat + 4 ≤ 65536 →
    ∃ t : State, memWrite addr .word v s = .ok () t ∧
      (∀ k, k < 4 → memRead (addr + BitVec.ofNat 32 k) .byte t =
        .ok (BitVec.ofNat 32 (v.toNat / 2 ^ (8 * k) % 2 ^ 8)) t) ∧
      (∀ k, k < 3 → memRead (addr + BitVec.ofNat 32 k) .short t =
        .ok (BitVec.ofNat 32 (v.toNat / 2 ^ (8 * k) % 2 ^ 16)) t)

/-- The two memory instructions invert each other (spec/44_memory_access.md, derived there): after a
`store` of a width, a `fetch` of the same width from the same address gives the low bytes of the
stored Word, zero-extended. -/
def Obligations.FetchReturnsStoredBytes : Prop :=
  ∀ (rel : Bool) (s : State) (x a : Word) (rest : List Word),
    s.wst.words = x :: a :: rest →
    ∀ p ∈ [(Instr.storeW rel, Instr.fetchW rel, 4), (.storeB rel, .fetchB rel, 1),
        (.storeS rel, .fetchS rel, 2)],
      (effAddr x rel s).toNat + p.2.2 ≤ 65536 →
      ∃ t : State, exec p.1 s = .next t ∧
        ∀ (u : State) (y : Word) (rest' : List Word), u.mem = t.mem →
          u.wst.words = y :: rest' → effAddr y rel u = effAddr x rel s →
          Leaves (exec p.2.1 u) u (BitVec.ofNat 32 (a.toNat % 256 ^ p.2.2) :: rest') u.pc

/-- Store into code (spec/20_memory.md section 6, the spec's own decision D14): a byte stored at the
address the next instruction is fetched from is the byte that is decoded there, by the very next
step. -/
def Obligations.StoreIsSeenByNextFetch : Prop :=
  ∀ (s : State) (x a : Word) (rest : List Word) (i : Instr) (tail : List Byte),
    s.runState = .running → s.wst.words = x :: a :: rest → x = s.pc → x.toNat < 65536 →
    decode (BitVec.ofNat 8 a.toNat :: s.mem.bytesFrom (x.toNat + 1) 4) = .ok (i, tail) →
    ∃ t : State, exec (.storeB false) s = .next t ∧
      step t = exec i { t with pc := t.pc + 1 }

/-! ## Encoding -/

/-- Decode and encode agree (spec/30_encoding.md sections 1 to 3): every instruction is what its bytes
decode to, every operand at every value. -/
def Obligations.DecodeInvertsEncode : Prop :=
  ∀ (i : Instr) (rest : List Byte), decode (encode i ++ rest) = .ok (i, rest)

/-- R50: `b = rel * 128 + size * 32 + op`, and the three fields are read back as the slices
`b[7]`, `b[6:5]`, `b[4:0]`. -/
def Obligations.InstructionByteFields : Prop :=
  (∀ (op : Op) (size : Option Width) (rel : Bool),
    (instrByte op size rel).toNat =
      (if rel then 128 else 0) + (widthBits size).toNat * 32 + opcodeTable.idxOf op) ∧
  ∀ b : Byte, (opField b).toNat = b.toNat % 32 ∧ (sizeField b).toNat = b.toNat / 32 % 4 ∧
    (relField b = true ↔ 128 ≤ b.toNat)

/-- Ignored fields (spec/30_encoding.md section 5, the spec's own decision D5): bytes that differ only
in fields their opcode does not use decode alike, and an encoding has every unused field zero. The
opcode numbers by which `canonicalByte` knows the opcodes (spec/30_encoding.md section 2) are the
spec's own decision D1, log entry 9. -/
def Obligations.UnusedFieldsAreIgnored : Prop :=
  (∀ (b : Byte) (rest : List Byte), decode (b :: rest) = decode (canonicalByte b :: rest)) ∧
  ∀ i : Instr, ∃ (b : Byte) (rest : List Byte), encode i = b :: rest ∧ canonicalByte b = b

/-- Length (spec/30_encoding.md section 4, derived there; the number 1 of `lit` is the spec's own
decision D1): the length is known from the first byte, 1 unless the opcode is 1, and 5, 2 or 3 for
`lit` with size `00`, `01` or `10`. -/
def Obligations.LengthIsKnownFromFirstByte : Prop :=
  ∀ (b : Byte) (rest tail : List Byte) (i : Instr), decode (b :: rest) = .ok (i, tail) →
    ∃ n, (b :: rest).drop n = tail ∧ n = (encode i).length ∧
      n = 1 + immediateBytes b ∧
      (b.toNat % 32 ≠ 1 → n = 1) ∧
      (b.toNat % 32 = 1 → b.toNat / 32 % 4 = 0 → n = 5) ∧
      (b.toNat % 32 = 1 → b.toNat / 32 % 4 = 1 → n = 2) ∧
      (b.toNat % 32 = 1 → b.toNat / 32 % 4 = 2 → n = 3)

/-- All 256 byte values (spec/30_encoding.md section 5): no byte is without a handler, and with enough
bytes after it every byte value decodes; the ill-formed instructions come from exactly the ten byte
values listed there. Which bytes those are rests on the spec's own decisions D1 and D4. -/
def Obligations.EveryByteHasHandler : Prop :=
  (∀ bytes : List Byte, decode bytes ≠ .error .noHandler) ∧
  ∀ (b : Byte) (rest : List Byte), 4 ≤ rest.length →
    ∃ (i : Instr) (tail : List Byte), decode (b :: rest) = .ok (i, tail) ∧
      (i.wellFormed = false ↔ b.toNat ∈ illegalBytes)

/-- The five illegal forms (spec/30_encoding.md section 5; four of them the spec's own decision D4)
raise `InvalidInstruction` where the width would be used: `lit.x` at once, `sext.w`, `sext.x` and
`fetch.x` after one pop, `store.x` after two (spec/43_literal_alu.md sections 2 and 7,
spec/44_memory_access.md). With too few Words the pop raises first, and what was popped before a raise
is gone (spec/60_exceptions.md section 4): the spec's own decision D9, log entry 11. -/
def Obligations.IllegalFormsRaiseAfterPops : Prop :=
  ∀ s : State,
    FaultsAtOnce (exec .litX s) .invalidInstruction s ∧
    (∀ rel, ∀ i ∈ [Instr.sextW, .sextX, .fetchX rel],
      (s.wst.words = [] → Faults (exec i s) .wstUnderflow s []) ∧
      (∀ x rest, s.wst.words = x :: rest → Faults (exec i s) .invalidInstruction s rest)) ∧
    (∀ rel,
      (s.wst.words.length < 2 → Faults (exec (.storeX rel) s) .wstUnderflow s []) ∧
      (∀ x a rest, s.wst.words = x :: a :: rest →
        Faults (exec (.storeX rel) s) .invalidInstruction s rest))

/-- A few instructions as the spec writes their bytes out (spec/30_encoding.md section 6). The opcode
numbers are the spec's own decision D1. -/
def Obligations.SpecExamplesDecode : Prop :=
  decode [0x21, 53] = .ok (.litB 53, []) ∧
  decode [0x41, 0x2D, 0x00] = .ok (.litS 45, []) ∧
  decode [0x01, 0x78, 0x56, 0x34, 0x12] = .ok (.litW 0x12345678, []) ∧
  decode [0x18] = .ok (.add, []) ∧ decode [0x8C] = .ok (.jmp true, []) ∧
  decode [0xBC] = .ok (.fetchB true, []) ∧ decode [0x5D] = .ok (.storeS false, []) ∧
  decode [0x3E] = .ok (.sextB, []) ∧ decode [0x1F] = .ok (.trap, []) ∧
  decode [0x00] = .ok (.nop, [])

/-! ## The step -/

/-- One step (spec/40_execution_cycle.md section 3): a running core whose bytes at `pc` decode to
an instruction executes it with `pc` one more; nothing else stands between the step and `exec`. That
the immediate of a `lit` (spec/43_literal_alu.md section 2) is read with the instruction byte is the
model's inference, log entry 1. -/
def Obligations.StepRunsDecodedInstruction : Prop :=
  ∀ (s : State) (i : Instr) (tail : List Byte), s.runState = .running →
    decode (fetchBytes s) = .ok (i, tail) → step s = exec i { s with pc := s.pc + 1 }

/-- One step on memory (spec/40_execution_cycle.md section 3, spec/30_encoding.md section 1): a
running core that has the bytes of an instruction in memory at `pc` executes that instruction. That
the immediate of a `lit` (spec/43_literal_alu.md section 2) is read with the instruction byte is the
model's inference, log entry 1. -/
def Obligations.StepRunsInstructionInMemory : Prop :=
  ∀ (s : State) (i : Instr), s.runState = .running →
    s.pc.toNat + (encode i).length ≤ 65536 →
    (∀ k (h : k < (encode i).length), s.mem.read (s.pc.toNat + k) = (encode i)[k]) →
    step s = exec i { s with pc := s.pc + 1 }

/-- The fetch (spec/40_execution_cycle.md section 3, derived there and the spec's own decision D21): at
`pc >= 65536` it raises `MemoryAccessError` and leaves `pc`; any other fetch moves `pc` on by one and
then has an instruction or finds a `lit` immediate cut short. That this `MemoryAccessError` of
spec/43_literal_alu.md section 2 is raised in the fetch, and not inside the instruction, is the
model's inference, log entry 1; the state after it is the same. -/
def Obligations.FetchIsBoundsChecked : Prop :=
  ∀ s : State, s.runState = .running →
    (65536 ≤ s.pc.toNat → FaultsAtOnce (step s) .memoryAccessError s) ∧
    (s.pc.toNat < 65536 →
      (∃ (i : Instr) (tail : List Byte), decode (fetchBytes s) = .ok (i, tail) ∧
        fetchInstr s = .ok i { s with pc := s.pc + 1 }) ∨
      (decode (fetchBytes s) = .error .immediateCutShort ∧
        FaultsAtOnce (step s) .memoryAccessError { s with pc := s.pc + 1 }))

/-- A step granted to a stopped core changes nothing (spec/40_execution_cycle.md section 4, the spec's
own decision D13). -/
def Obligations.StoppedCoreIgnoresStep : Prop :=
  ∀ s : State, s.runState ≠ .running → step s = .next s

/-- The outcomes of a step (spec/40_execution_cycle.md section 4; as latches, the spec's own decision
D11): it goes on with the latches as they were; it halts, and then the instruction was `trap` with
selector 0 on top of the status; or it faults, and `fault_cause` is the code of the cause that the
fault tables (spec/60_exceptions.md sections 1 and 3) give for the state before the step. Those
tables, `stepCause`, rest on what `StepFaultsAsTabled` names: the spec's own decisions D4, D9, D10,
D12, D18 (log entry 11), D21, D22 and D1 (log entry 9), and the model's log entry 1. -/
def Obligations.StepHasThreeOutcomes : Prop :=
  ∀ s : State, s.runState = .running →
    ∃ t : State, step s = .next t ∧
      ((t.runState = .running ∧ t.faultCause = s.faultCause ∧ t.exitStatus = s.exitStatus) ∨
       (t.runState = .halted ∧ t.faultCause = s.faultCause ∧
         ∃ (tail : List Byte) (status : Word) (rest : List Word),
           decode (fetchBytes s) = .ok (.trap, tail) ∧
           s.wst.words = 0 :: status :: rest ∧ t.exitStatus = status) ∨
       (t.runState = .faulted ∧ t.exitStatus = s.exitStatus ∧
         ∃ c : Cause, stepCause s = some c ∧ t.faultCause = causeCode c))

/-- The invariant holds after reset (spec/10_state.md sections 6, 7 and 9): the memory is in canonical
form inside its 65536 bytes, and a latch that means nothing has its reset value. The canonical form is
the model's own, log entry 10; the latches are the spec's own decision D11. -/
def Obligations.ResetMeetsInvariant : Prop := State.reset.Inv

/-- Every step keeps the invariant (spec/10_state.md sections 6 and 7, spec/20_memory.md sections 1 and
3). The canonical form of the memory is the model's own, log entry 10; the latches are the spec's own
decision D11. -/
def Obligations.StepKeepsInvariant : Prop :=
  ∀ s t : State, s.Inv → step s = .next t → t.Inv

/-- What a fault leaves (spec/60_exceptions.md sections 1 and 4; which earlier effects stand is the
spec's own decision D9): a step that faults changes neither memory nor output nor exit status, and
leaves `pc` after the instruction byte, or where it was if the fetch itself failed, its decision D21.
The exit status is a latch of its decision D11. -/
def Obligations.FaultLeavesMemoryAndOutput : Prop :=
  ∀ s t : State, s.runState = .running → step s = .next t → t.runState = .faulted →
    t.mem = s.mem ∧ t.out = s.out ∧ t.exitStatus = s.exitStatus ∧
    t.pc = if s.pc.toNat < 65536 then s.pc + 1 else s.pc

/-- The fault tables (spec/60_exceptions.md sections 1 and 3, derived there) for `exec`: an instruction
raises exactly the cause the tables give for the Words on the stacks, and none where they give none.
The tables, `faultCondition`, rest on the spec's own decisions D4 (size `11`, spec/30_encoding.md
section 5), D9 (order of the checks), D10 (`divmod` over the single Word 0, spec/43_literal_alu.md
section 6), D12 and D18 (the address of an access, spec/44_memory_access.md), all log entry 11, D22
(a service's argument, spec/45_trap.md) and D11 (a fault as latches, log entry 3). -/
def Obligations.InstructionFaultsAsTabled : Prop :=
  ∀ (i : Instr) (s : State), s.runState = .running →
    ∃ t : State, exec i s = .next t ∧
      match faultCondition i s with
      | some c => t.runState = .faulted ∧ t.faultCause = causeCode c
      | none => t.runState ≠ .faulted

/-- The fault tables (spec/60_exceptions.md sections 1 and 3, derived there) for a step: it faults
exactly when they say, with the cause whose check comes first, the fetch before the instruction.
`stepCause` rests on the spec's own decisions D21 (the fetch bound, spec/40_execution_cycle.md section
3), D1 (which byte is a `lit`, spec/30_encoding.md section 2, log entry 9) and those of
`InstructionFaultsAsTabled`: D4, D9, D10, D12, D18 (log entry 11), D22 and D11. That a `lit` cut short
faults in the fetch is the model's inference, log entry 1. -/
def Obligations.StepFaultsAsTabled : Prop :=
  ∀ s : State, s.runState = .running →
    ∃ t : State, step s = .next t ∧
      match stepCause s with
      | some c => t.runState = .faulted ∧ t.faultCause = causeCode c
      | none => t.runState ≠ .faulted

/-- Of all instructions only `store` changes memory (spec/20_memory.md section 1). -/
def Obligations.OnlyStoreChangesMemory : Prop :=
  ∀ (i : Instr) (s t : State), exec i s = .next t → t.mem ≠ s.mem →
    ∃ rel, i = .storeW rel ∨ i = .storeB rel ∨ i = .storeS rel

/-- Only `trap` reaches the host (spec/45_trap.md, spec/20_memory.md section 3): it alone halts the core
or adds to the output, and it adds at most one Word, at the end. The halt as a latch is the spec's own
decision D11, the output its decision D15. -/
def Obligations.OnlyTrapReachesHost : Prop :=
  ∀ (i : Instr) (s t : State), exec i s = .next t →
    (t.out = s.out ∨ (i = .trap ∧ t.runState = s.runState ∧ ∃ ch : Word, t.out = s.out ++ [ch])) ∧
    (t.runState = .halted → s.runState ≠ .halted → i = .trap)

/-- Only `call`, `ccall`, `ret`, `cret`, `wtr` and `rtw` touch the return stack (spec/10_state.md
section 3). -/
def Obligations.OnlySixTouchReturnStack : Prop :=
  ∀ (i : Instr) (s t : State), exec i s = .next t → t.rst ≠ s.rst →
    i = .ret ∨ i = .cret ∨ i = .wtr ∨ i = .rtw ∨ ∃ rel, i = .call rel ∨ i = .ccall rel

/-- After the fetch only `lit` and the six control-flow instructions write `pc` (spec/10_state.md
section 4). -/
def Obligations.OnlyLitAndTransfersWritePc : Prop :=
  ∀ (i : Instr) (s t : State), exec i s = .next t → t.pc ≠ s.pc →
    (∃ v, i = .litW v) ∨ (∃ v, i = .litB v) ∨ (∃ v, i = .litS v) ∨ i = .ret ∨ i = .cret ∨
    ∃ rel, i = .call rel ∨ i = .ccall rel ∨ i = .jmp rel ∨ i = .cjmp rel

/-- Step grants (spec/40_execution_cycle.md section 4): a budget of 0 performs no step, a budget of 1
is one step, a budget of `n` is `n` step grants of the host (its moves are log entry 5), and a budget
split into two calls gives the same state as one call. That a stopped core takes a step without any
change, so that all this holds in every state, is the spec's own decision D13, log entry 3. -/
def Obligations.BudgetPartitionIsInvisible : Prop :=
  (∀ s : State, execBudget 0 s = .next s) ∧
  (∀ s : State, execBudget 1 s = step s) ∧
  (∀ (n : Nat) (s : State), ∃ t : State, execBudget n s = .next t ∧
    hostMoves (List.replicate n .grant) (.stepping s) = .next (.stepping t)) ∧
  ∀ (m n : Nat) (s : State), ∃ t : State,
    execBudget m s = .next t ∧ execBudget (m + n) s = execBudget n t

/-- Stale slots (spec/10_state.md section 3, the spec's own decision D24): what the slots at or above the
pointers hold cannot be observed, since states that differ only there step to states that differ only
there. -/
def Obligations.SlotsAbovePointerUnobservable : Prop :=
  ∀ s s' : State, s.sameView s' →
    ∃ t t' : State, step s = .next t ∧ step s' = .next t' ∧ t.sameView t'

/-- The causes (spec/60_exceptions.md sections 1 and 4): the code of each, and the report a faulted core
shows. The numbers are the spec's own decision D2, the latches that show them its decision D11. -/
def Obligations.CauseCodesAndReport : Prop :=
  causeCode .divByZero = 0 ∧ causeCode .wstUnderflow = 1 ∧ causeCode .wstOverflow = 2 ∧
  causeCode .rstUnderflow = 3 ∧ causeCode .rstOverflow = 4 ∧ causeCode .memoryAccessError = 5 ∧
  causeCode .invalidInstruction = 6 ∧ causeCode .invalidTrap = 7 ∧
  ∀ (c : Cause) (s : State), outcomeOf (raise c s) = .fault c

/-! ## Stack instructions -/

/-- `nop` (spec/41_stack_ops.md section 2): it changes nothing but `pc`, the spec's own decision D6. A
zero byte at `pc` is `nop` (spec/10_state.md section 9) by the opcode numbers, the spec's own decision
D1, log entry 9. -/
def Obligations.NopOnlyAdvancesPc : Prop :=
  (∀ s : State, exec .nop s = .next s) ∧
  ∀ s : State, s.runState = .running → s.pc.toNat < 65536 → s.mem.read s.pc.toNat = 0 →
    step s = .next { s with pc := s.pc + 1 }

/-- R95: on a full stack the fault leaves the stack as it was. -/
def Obligations.DupCopiesTop : Prop :=
  ∀ s : State,
    (∀ a rest, s.wst.words = a :: rest → s.wst.words.length < 256 →
      Leaves (exec .dup s) s (a :: a :: rest) s.pc) ∧
    (s.wst.words.length = 256 → Faults (exec .dup s) .wstOverflow s s.wst.words) ∧
    (s.wst.words = [] → Faults (exec .dup s) .wstUnderflow s [])

/-- `drop`, `nip` (spec/41_stack_ops.md section 2): `drop` removes the top Word, `nip` the one under it.
That a Word popped before an underflow is gone (spec/60_exceptions.md section 4) is the spec's own
decision D9, log entry 11. -/
def Obligations.DropAndNipRemoveOneWord : Prop :=
  ∀ s : State,
    (∀ a rest, s.wst.words = a :: rest → Leaves (exec .drop s) s rest s.pc) ∧
    (s.wst.words = [] → Faults (exec .drop s) .wstUnderflow s []) ∧
    (∀ a b rest, s.wst.words = b :: a :: rest → Leaves (exec .nip s) s (b :: rest) s.pc) ∧
    (s.wst.words.length < 2 → Faults (exec .nip s) .wstUnderflow s [])

/-- `swap`, `over` (spec/41_stack_ops.md section 2): `swap` exchanges the top two Words, `over` copies the
second. That with fewer than two Words the pops that succeed stand (spec/60_exceptions.md section 4)
is the spec's own decision D9, log entry 11. -/
def Obligations.SwapAndOverOnTopTwo : Prop :=
  ∀ s : State,
    (∀ a b rest, s.wst.words = b :: a :: rest → Leaves (exec .swap s) s (a :: b :: rest) s.pc) ∧
    (∀ a b rest, s.wst.words = b :: a :: rest → s.wst.words.length < 256 →
      Leaves (exec .overOp s) s (a :: b :: a :: rest) s.pc) ∧
    (s.wst.words.length = 256 → Faults (exec .overOp s) .wstOverflow s s.wst.words) ∧
    (s.wst.words.length < 2 → Faults (exec .swap s) .wstUnderflow s [] ∧
      Faults (exec .overOp s) .wstUnderflow s [])

/-- `rot` (spec/41_stack_ops.md section 2): the third Word from the top moves to the top. That Words
popped before an underflow are gone (spec/60_exceptions.md section 4) is the spec's own decision D9,
log entry 11. -/
def Obligations.RotRaisesThird : Prop :=
  ∀ s : State,
    (∀ a b c rest, s.wst.words = c :: b :: a :: rest →
      Leaves (exec .rot s) s (a :: c :: b :: rest) s.pc) ∧
    (s.wst.words.length < 3 → Faults (exec .rot s) .wstUnderflow s [])

/-- R101: with both an empty working stack and a full return stack the underflow is raised; with a
full return stack alone the Word popped is lost. -/
def Obligations.WtrMovesTopToReturnStack : Prop :=
  ∀ s : State,
    (∀ a rest, s.wst.words = a :: rest → s.rst.words.length < 256 →
      LeavesBoth (exec .wtr s) s rest (a :: s.rst.words) s.pc) ∧
    (∀ a rest, s.wst.words = a :: rest → s.rst.words.length = 256 →
      Faults (exec .wtr s) .rstOverflow s rest) ∧
    (s.wst.words = [] → Faults (exec .wtr s) .wstUnderflow s [])

/-- R102: with both an empty return stack and a full working stack the underflow is raised; with a
full working stack alone the Word popped is lost. -/
def Obligations.RtwMovesReturnTopToWorking : Prop :=
  ∀ s : State,
    (∀ a rest, s.rst.words = a :: rest → s.wst.words.length < 256 →
      LeavesBoth (exec .rtw s) s (a :: s.wst.words) rest s.pc) ∧
    (∀ a rest, s.rst.words = a :: rest → s.wst.words.length = 256 →
      FaultsBoth (exec .rtw s) .wstOverflow s s.wst.words rest) ∧
    (s.rst.words = [] → FaultsAtOnce (exec .rtw s) .rstUnderflow s)

/-! ## Control flow -/

/-- The two address forms (spec/42_control_flow.md section 1, spec/44_memory_access.md): a relative
target or address is the popped Word plus `pc`, which stands after the instruction byte, modulo
`2 ^ 32`; an absolute one is the Word itself. The wrap is the spec's own decision D12, the base of a
data address its decision D18. -/
def Obligations.RelativeAddsPcModuloWord : Prop :=
  ∀ (x : Word) (s : State),
    target x false s = x ∧ (target x true s).toNat = (s.pc.toNat + x.toNat) % 2 ^ 32 ∧
    effAddr x false s = x ∧ (effAddr x true s).toNat = (x.toNat + s.pc.toNat) % 2 ^ 32

/-- R110: the return address is pushed first; if the target is then missing it stays pushed. -/
def Obligations.CallPushesReturnAddress : Prop :=
  ∀ (rel : Bool) (s : State),
    (∀ t rest, s.wst.words = t :: rest → s.rst.words.length < 256 →
      LeavesBoth (exec (.call rel) s) s rest (s.pc :: s.rst.words) (target t rel s)) ∧
    (s.rst.words.length = 256 → FaultsAtOnce (exec (.call rel) s) .rstOverflow s) ∧
    (s.wst.words = [] → s.rst.words.length < 256 →
      FaultsBoth (exec (.call rel) s) .wstUnderflow s [] (s.pc :: s.rst.words))

/-- R111: both Words are popped in any case; the call happens only if the flag is not 0, and only
then is a full return stack a fault. -/
def Obligations.CcallCallsWhenFlagNotZero : Prop :=
  ∀ (rel : Bool) (s : State),
    (∀ t f rest, s.wst.words = f :: t :: rest → f ≠ 0 → s.rst.words.length < 256 →
      LeavesBoth (exec (.ccall rel) s) s rest (s.pc :: s.rst.words) (target t rel s)) ∧
    (∀ t f rest, s.wst.words = f :: t :: rest → f ≠ 0 → s.rst.words.length = 256 →
      Faults (exec (.ccall rel) s) .rstOverflow s rest) ∧
    (∀ t rest, s.wst.words = 0 :: t :: rest → Leaves (exec (.ccall rel) s) s rest s.pc) ∧
    (s.wst.words.length < 2 → Faults (exec (.ccall rel) s) .wstUnderflow s [])

/-- R112: the Word popped becomes `pc` whole and unchecked. -/
def Obligations.RetPopsIntoPc : Prop :=
  ∀ s : State,
    (∀ r rest, s.rst.words = r :: rest → LeavesReturn (exec .ret s) s rest r) ∧
    (s.rst.words = [] → FaultsAtOnce (exec .ret s) .rstUnderflow s)

/-- `cret` (spec/42_control_flow.md section 2): the return stack is touched only if the flag is not 0.
That the flag is gone after `RstUnderflow` (spec/60_exceptions.md section 4) is the spec's own
decision D9, log entry 11. -/
def Obligations.CretReturnsWhenFlagNotZero : Prop :=
  ∀ s : State,
    (∀ f rest r rrest, s.wst.words = f :: rest → f ≠ 0 → s.rst.words = r :: rrest →
      LeavesBoth (exec .cret s) s rest rrest r) ∧
    (∀ f rest, s.wst.words = f :: rest → f ≠ 0 → s.rst.words = [] →
      Faults (exec .cret s) .rstUnderflow s rest) ∧
    (∀ rest, s.wst.words = 0 :: rest → Leaves (exec .cret s) s rest s.pc) ∧
    (s.wst.words = [] → Faults (exec .cret s) .wstUnderflow s [])

/-- R114: no return address is pushed. -/
def Obligations.JmpGoesToTarget : Prop :=
  ∀ (rel : Bool) (s : State),
    (∀ t rest, s.wst.words = t :: rest →
      Leaves (exec (.jmp rel) s) s rest (target t rel s)) ∧
    (s.wst.words = [] → Faults (exec (.jmp rel) s) .wstUnderflow s [])

/-- R115: both Words are popped in any case. -/
def Obligations.CjmpGoesWhenFlagNotZero : Prop :=
  ∀ (rel : Bool) (s : State),
    (∀ t f rest, s.wst.words = f :: t :: rest → f ≠ 0 →
      Leaves (exec (.cjmp rel) s) s rest (target t rel s)) ∧
    (∀ t rest, s.wst.words = 0 :: t :: rest → Leaves (exec (.cjmp rel) s) s rest s.pc) ∧
    (s.wst.words.length < 2 → Faults (exec (.cjmp rel) s) .wstUnderflow s [])

/-! ## Literal, compare, logic, shift, arithmetic, sign extension -/

/-- `lit` in memory (spec/30_encoding.md section 3, spec/43_literal_alu.md section 2): a step at a `lit`
byte with a size that has an immediate pushes the little-endian immediate after it, zero-extended, and
moves `pc` past it. It raises `MemoryAccessError` if the immediate runs past the end of memory, else
`WstOverflow` on a full stack, each with `pc` after the instruction byte: that order, and the `pc` a
fault leaves, are the spec's own decision D9 (spec/60_exceptions.md sections 3 and 4), log entry 11.
No other instruction has an operand in the instruction stream. -/
def Obligations.LitPushesImmediateFromMemory : Prop :=
  (∀ (s : State) (w : Width), s.runState = .running → s.pc.toNat < 65536 →
    opOfBits (opField (s.mem.read s.pc.toNat)) = some .lit →
    widthOfBits (sizeField (s.mem.read s.pc.toNat)) = some w →
    (65536 < s.pc.toNat + 1 + w.bytes →
      FaultsAtOnce (step s) .memoryAccessError { s with pc := s.pc + 1 }) ∧
    (s.pc.toNat + 1 + w.bytes ≤ 65536 → s.wst.words.length = 256 →
      FaultsAtOnce (step s) .wstOverflow { s with pc := s.pc + 1 }) ∧
    (s.pc.toNat + 1 + w.bytes ≤ 65536 → s.wst.words.length < 256 →
      Leaves (step s) s
        (BitVec.ofNat 32 (littleEndian s.mem (s.pc.toNat + 1) w.bytes) :: s.wst.words)
        (BitVec.ofNat 32 (s.pc.toNat + 1 + w.bytes)))) ∧
  ∀ (b : Byte) (rest rest' : List Byte), opOfBits (opField b) ≠ some .lit →
    ∃ i : Instr, decode (b :: rest) = .ok (i, rest) ∧ decode (b :: rest') = .ok (i, rest')

/-- `lit` once decoded (spec/43_literal_alu.md section 2): each form pushes its immediate zero-extended
and moves `pc` by the operand width; on a full stack it raises `WstOverflow` and `pc` does not
move, the spec's own decision D9 (spec/60_exceptions.md section 4), log entry 11. -/
def Obligations.LitZeroExtendsImmediate : Prop :=
  (∀ (imm : BitVec 32) (s : State),
    (s.wst.words.length < 256 →
      Leaves (exec (.litW imm) s) s (imm :: s.wst.words) (s.pc + 4)) ∧
    (s.wst.words.length = 256 → FaultsAtOnce (exec (.litW imm) s) .wstOverflow s)) ∧
  (∀ (imm : BitVec 8) (s : State),
    (s.wst.words.length < 256 →
      Leaves (exec (.litB imm) s) s (BitVec.ofNat 32 imm.toNat :: s.wst.words) (s.pc + 1)) ∧
    (s.wst.words.length = 256 → FaultsAtOnce (exec (.litB imm) s) .wstOverflow s)) ∧
  (∀ (imm : BitVec 16) (s : State),
    (s.wst.words.length < 256 →
      Leaves (exec (.litS imm) s) s (BitVec.ofNat 32 imm.toNat :: s.wst.words) (s.pc + 2)) ∧
    (s.wst.words.length = 256 → FaultsAtOnce (exec (.litS imm) s) .wstOverflow s))

/-- `eq`, `neq`, `lt`, `gt` (spec/43_literal_alu.md sections 1 and 3): the comparisons push 1 or 0, on
unsigned Words, the second from the top on the left. What an underflow leaves
(spec/60_exceptions.md section 4) is the spec's own decision D9, log entry 11. -/
def Obligations.ComparisonsPushOneOrZero : Prop :=
  ∀ s : State,
    (∀ (a b : Word) (rest : List Word), s.wst.words = b :: a :: rest →
      Leaves (exec .eq s) s ((if a.toNat = b.toNat then 1 else 0) :: rest) s.pc ∧
      Leaves (exec .neq s) s ((if a.toNat ≠ b.toNat then 1 else 0) :: rest) s.pc ∧
      Leaves (exec .lt s) s ((if a.toNat < b.toNat then 1 else 0) :: rest) s.pc ∧
      Leaves (exec .gt s) s ((if b.toNat < a.toNat then 1 else 0) :: rest) s.pc) ∧
    (s.wst.words.length < 2 → ∀ i ∈ [Instr.eq, .neq, .lt, .gt],
      Faults (exec i s) .wstUnderflow s [])

/-- `and`, `or`, `xor` (spec/43_literal_alu.md sections 1 and 4): bit by bit over 32 bits. What an
underflow leaves (spec/60_exceptions.md section 4) is the spec's own decision D9, log entry 11. -/
def Obligations.LogicIsBitwise : Prop :=
  ∀ s : State,
    (∀ (a b : Word) (rest : List Word), s.wst.words = b :: a :: rest →
      ∃ x y z : Word,
        (∀ k, k < 32 → x.getLsbD k = (a.getLsbD k && b.getLsbD k) ∧
          y.getLsbD k = (a.getLsbD k || b.getLsbD k) ∧
          z.getLsbD k = (a.getLsbD k != b.getLsbD k)) ∧
        Leaves (exec .and s) s (x :: rest) s.pc ∧ Leaves (exec .or s) s (y :: rest) s.pc ∧
        Leaves (exec .xor s) s (z :: rest) s.pc) ∧
    (s.wst.words.length < 2 → ∀ i ∈ [Instr.and, .or, .xor], Faults (exec i s) .wstUnderflow s [])

/-- `shift` (spec/43_literal_alu.md section 5): the amount is signed; a left shift multiplies modulo
`2 ^ 32`, a right shift divides; a magnitude of 32 or more gives 0, the spec's own decision D8; what
an underflow leaves is its decision D9. -/
def Obligations.ShiftIsLogicalBySignedAmount : Prop :=
  ∀ s : State,
    (∀ (a sb : Word) (rest : List Word), s.wst.words = sb :: a :: rest →
      Leaves (exec .shift s) s
        ((if 0 ≤ sb.toInt then
            (if 32 ≤ sb.toInt then 0 else BitVec.ofNat 32 (a.toNat * 2 ^ sb.toInt.toNat))
          else
            (if 32 ≤ -sb.toInt then 0 else BitVec.ofNat 32 (a.toNat / 2 ^ (-sb.toInt).toNat)))
          :: rest) s.pc) ∧
    (s.wst.words.length < 2 → Faults (exec .shift s) .wstUnderflow s [])

/-- `add`, `mul` (spec/43_literal_alu.md sections 1 and 6): sum and product modulo `2 ^ 32`, without any
fault on overflow. What an underflow leaves (spec/60_exceptions.md section 4) is the spec's own
decision D9, log entry 11. -/
def Obligations.AddAndMulWrapSilently : Prop :=
  ∀ s : State,
    (∀ (a b : Word) (rest : List Word), s.wst.words = b :: a :: rest →
      Leaves (exec .add s) s (BitVec.ofNat 32 (a.toNat + b.toNat) :: rest) s.pc ∧
      Leaves (exec .mul s) s (BitVec.ofNat 32 (a.toNat * b.toNat) :: rest) s.pc) ∧
    (s.wst.words.length < 2 → ∀ i ∈ [Instr.add, .mul], Faults (exec i s) .wstUnderflow s [])

/-- `sub` (spec/43_literal_alu.md section 6): the top is subtracted from the Word under it, modulo
`2 ^ 32`. The operand order is the spec's own decision D7, what an underflow leaves its
decision D9. -/
def Obligations.SubSubtractsTopFromSecond : Prop :=
  ∀ s : State,
    (∀ (a b : Word) (rest : List Word), s.wst.words = b :: a :: rest →
      Leaves (exec .sub s) s (BitVec.ofInt 32 ((a.toNat : Int) - (b.toNat : Int)) :: rest) s.pc) ∧
    (s.wst.words.length < 2 → Faults (exec .sub s) .wstUnderflow s [])

/-- `divmod` (spec/43_literal_alu.md section 6): remainder under quotient; a divisor of 0 raises
`DivByZero` with the dividend left where it is, the spec's own decision D10; a missing dividend is an
underflow only for a divisor that is not 0, and what it leaves is its decision D9. -/
def Obligations.DivmodLeavesRemainderAndQuotient : Prop :=
  ∀ s : State,
    (∀ (a b : Word) (rest : List Word), s.wst.words = b :: a :: rest → b ≠ 0 →
      ∃ q r : Word, a.toNat = q.toNat * b.toNat + r.toNat ∧ r.toNat < b.toNat ∧
        Leaves (exec .divmod s) s (q :: r :: rest) s.pc) ∧
    (∀ rest, s.wst.words = 0 :: rest → Faults (exec .divmod s) .divByZero s rest) ∧
    (∀ b, s.wst.words = [b] → b ≠ 0 → Faults (exec .divmod s) .wstUnderflow s []) ∧
    (s.wst.words = [] → Faults (exec .divmod s) .wstUnderflow s [])

/-- `sext` (spec/43_literal_alu.md section 7): the low 8 or 16 bits read as a signed number, higher bits
of the operand ignored, the spec's own decision D19; the word form and size `11` (its decision D4)
raise `InvalidInstruction` after the pop, which stands (its decision D9). -/
def Obligations.SextExtendsSignBit : Prop :=
  ∀ s : State,
    (∀ (b : Word) (rest : List Word), s.wst.words = b :: rest →
      Leaves (exec .sextB s) s
        (BitVec.ofInt 32 (if b.toNat % 256 < 128 then ((b.toNat % 256 : Nat) : Int)
          else ((b.toNat % 256 : Nat) : Int) - 256) :: rest) s.pc ∧
      Leaves (exec .sextS s) s
        (BitVec.ofInt 32 (if b.toNat % 65536 < 32768 then ((b.toNat % 65536 : Nat) : Int)
          else ((b.toNat % 65536 : Nat) : Int) - 65536) :: rest) s.pc ∧
      Faults (exec .sextW s) .invalidInstruction s rest ∧
      Faults (exec .sextX s) .invalidInstruction s rest) ∧
    (s.wst.words = [] → ∀ i ∈ [Instr.sextB, .sextS, .sextW, .sextX],
      Faults (exec i s) .wstUnderflow s [])

/-! ## Memory access -/

/-- `fetch` (spec/44_memory_access.md): the address is popped; size `11` is invalid, the spec's own
decision D4; an access past the end raises `MemoryAccessError`; otherwise the little-endian value,
zero-extended, takes the address's place. What is popped before a fault stays popped, its decision
D9; the effective address is its decisions D12 and D18. -/
def Obligations.FetchLoadsZeroExtended : Prop :=
  ∀ (rel : Bool) (s : State),
    (∀ (x : Word) (rest : List Word), s.wst.words = x :: rest →
      (∀ p ∈ [(Instr.fetchW rel, 4), (.fetchB rel, 1), (.fetchS rel, 2)],
        ((effAddr x rel s).toNat + p.2 ≤ 65536 →
          Leaves (exec p.1 s) s
            (BitVec.ofNat 32 (littleEndian s.mem (effAddr x rel s).toNat p.2) :: rest) s.pc) ∧
        (65536 < (effAddr x rel s).toNat + p.2 →
          Faults (exec p.1 s) .memoryAccessError s rest)) ∧
      Faults (exec (.fetchX rel) s) .invalidInstruction s rest) ∧
    (s.wst.words = [] → ∀ i ∈ [Instr.fetchW rel, .fetchB rel, .fetchS rel, .fetchX rel],
      Faults (exec i s) .wstUnderflow s [])

/-- `store` (spec/44_memory_access.md): the address is popped, then the value; size `11` is invalid, the
spec's own decision D4; an access past the end writes nothing; otherwise the low bytes of the value
are written and no other byte. What is popped before a fault stays popped, its decision D9;
the effective address is its decisions D12 and D18. -/
def Obligations.StoreWritesLowBytes : Prop :=
  ∀ (rel : Bool) (s : State),
    (∀ (x a : Word) (rest : List Word), s.wst.words = x :: a :: rest →
      (∀ p ∈ [(Instr.storeW rel, 4), (.storeB rel, 1), (.storeS rel, 2)],
        ((effAddr x rel s).toNat + p.2 ≤ 65536 →
          ∃ (st : Stack) (m : Memory), st.words = rest ∧
            exec p.1 s = .next { s with wst := st, mem := m } ∧
            WrittenAt s.mem m (effAddr x rel s).toNat p.2 a) ∧
        (65536 < (effAddr x rel s).toNat + p.2 →
          Faults (exec p.1 s) .memoryAccessError s rest)) ∧
      Faults (exec (.storeX rel) s) .invalidInstruction s rest) ∧
    (s.wst.words.length < 2 → ∀ i ∈ [Instr.storeW rel, .storeB rel, .storeS rel, .storeX rel],
      Faults (exec i s) .wstUnderflow s [])

/-! ## Trap -/

/-- `trap` (spec/45_trap.md; the spec's own decisions D9, D11, D15 and D22): selector 0 halts with the status,
selector 1 emits the Word, any other selector raises `InvalidTrap` with the argument left; a missing
argument is an underflow and the service does not happen. -/
def Obligations.TrapServesTwoSelectors : Prop :=
  ∀ s : State,
    (∀ (status : Word) (rest : List Word), s.wst.words = 0 :: status :: rest →
      ∃ st : Stack, st.words = rest ∧ exec .trap s =
        .next { s with wst := st, runState := .halted, exitStatus := status }) ∧
    (∀ (ch : Word) (rest : List Word), s.wst.words = 1 :: ch :: rest →
      ∃ st : Stack, st.words = rest ∧ exec .trap s =
        .next { s with wst := st, out := s.out ++ [ch] }) ∧
    (∀ (sel : Word) (rest : List Word), s.wst.words = sel :: rest → sel ≠ 0 → sel ≠ 1 →
      Faults (exec .trap s) .invalidTrap s rest) ∧
    (∀ sel : Word, s.wst.words = [sel] → sel = 0 ∨ sel = 1 →
      Faults (exec .trap s) .wstUnderflow s []) ∧
    (s.wst.words = [] → Faults (exec .trap s) .wstUnderflow s [])
end

