-- ==== Sys2Proof/Laws/Memory.lean ====
section
/-! SUPPORT. The laws of memory: reading after a write, and that every operation keeps the canonical
form. None of the read laws asks for the canonical form. -/

namespace Sys2Proof.Machine

@[simp] theorem Memory.read_nil (a : Nat) : Memory.read [] a = 0 := rfl

theorem Memory.read_insertByte (m : Memory) (a b : Nat) (v : Byte) :
    Memory.read (Memory.insertByte m a v) b = if b = a then v else Memory.read m b := by
  induction m with
  | nil => simp [Memory.insertByte, Memory.read, eq_comm]
  | cons c rest ih =>
    obtain ⟨k, x⟩ := c
    simp only [Memory.insertByte]
    split_ifs <;> simp only [Memory.read, ih] <;> split_ifs <;> first | rfl | omega

theorem Memory.read_filter (m : Memory) (a b : Nat) :
    Memory.read (m.filter (fun c => c.1 ≠ a)) b = if b = a then 0 else Memory.read m b := by
  induction m with
  | nil => simp [Memory.read, Memory.unlisted]
  | cons c rest ih =>
    obtain ⟨k, x⟩ := c
    by_cases hk : k = a
    · simp only [List.filter_cons, hk, ne_eq, not_true_eq_false, decide_false, Bool.false_eq_true,
        if_false, ih, Memory.read]
      split_ifs <;> first | rfl | omega
    · simp only [List.filter_cons, ne_eq, hk, not_false_eq_true, decide_true, if_true, Memory.read,
        ih]
      split_ifs <;> first | rfl | omega

/-- Reading after a write: the byte written at its address, every other byte as before. -/
theorem Memory.read_write (m : Memory) (a b : Nat) (v : Byte) :
    Memory.read (Memory.write m a v) b = if b = a then v else Memory.read m b := by
  unfold Memory.write
  split_ifs with hv hb hb
  · rw [Memory.read_filter, if_pos hb, hv]; rfl
  · rw [Memory.read_filter, if_neg hb]
  · rw [Memory.read_insertByte, if_pos hb]
  · rw [Memory.read_insertByte, if_neg hb]

@[simp] theorem Memory.read_write_self (m : Memory) (a : Nat) (v : Byte) :
    Memory.read (Memory.write m a v) a = v := by
  rw [Memory.read_write, if_pos rfl]

theorem Memory.read_write_ne (m : Memory) {a b : Nat} (v : Byte) (h : b ≠ a) :
    Memory.read (Memory.write m a v) b = Memory.read m b := by
  rw [Memory.read_write, if_neg h]

theorem Memory.wf_nil : Memory.wf [] := by simp [Memory.wf]

theorem Memory.mem_insertByte {m : Memory} {a : Nat} {v : Byte} {c : Host.Cell}
    (h : c ∈ Memory.insertByte m a v) : c = (a, v) ∨ c ∈ m := by
  induction m with
  | nil => simpa [Memory.insertByte] using h
  | cons d rest ih =>
    obtain ⟨k, x⟩ := d
    simp only [Memory.insertByte] at h
    split_ifs at h with h1 h2
    · simpa using h
    · rcases List.mem_cons.1 h with h | h
      · exact .inl h
      · exact .inr (List.mem_cons_of_mem _ h)
    · rcases List.mem_cons.1 h with h | h
      · exact .inr (h ▸ List.mem_cons_self)
      · exact (ih h).imp_right (List.mem_cons_of_mem _)

theorem Memory.pairwise_insertByte {m : Memory} (a : Nat) (v : Byte)
    (h : m.Pairwise (fun c d => c.1 < d.1)) :
    (Memory.insertByte m a v).Pairwise (fun c d => c.1 < d.1) := by
  induction m with
  | nil => simp [Memory.insertByte]
  | cons d rest ih =>
    obtain ⟨k, x⟩ := d
    obtain ⟨hd, hr⟩ := List.pairwise_cons.1 h
    simp only [Memory.insertByte]
    split_ifs with h1 h2
    · refine List.pairwise_cons.2 ⟨fun c hc => ?_, h⟩
      rcases List.mem_cons.1 hc with rfl | hc
      · exact h1
      · exact lt_trans h1 (hd c hc)
    · subst h2
      exact List.pairwise_cons.2 ⟨hd, hr⟩
    · refine List.pairwise_cons.2 ⟨fun c hc => ?_, ih hr⟩
      rcases Memory.mem_insertByte hc with rfl | hc
      · exact lt_of_le_of_ne (not_lt.1 h1) (Ne.symm h2)
      · exact hd c hc

/-- A write inside the memory keeps the canonical form. -/
theorem Memory.wf_write {m : Memory} {a : Nat} (v : Byte) (h : m.wf) (ha : a < Config.memBytes) :
    Memory.wf (Memory.write m a v) := by
  obtain ⟨hp, hm⟩ := h
  unfold Memory.write
  split_ifs with hv
  · exact ⟨hp.filter _, fun c hc => hm c (List.mem_filter.1 hc).1⟩
  · refine ⟨Memory.pairwise_insertByte a v hp, fun c hc => ?_⟩
    rcases Memory.mem_insertByte hc with rfl | hc
    · exact ⟨ha, hv⟩
    · exact hm c hc

/-- A checked write keeps the canonical form. -/
theorem Memory.wf_writeWidth {m : Memory} {a : Nat} (v : Word) (w : Width) (h : m.wf)
    (ha : a + w.bytes ≤ Config.memBytes) : Memory.wf (Memory.writeWidth m a v w) := by
  cases w <;> simp only [Width.bytes] at ha <;> simp only [Memory.writeWidth] <;>
    repeat (first | exact h | refine Memory.wf_write _ ?_ (by omega))

theorem Memory.wf_placeBytes {m : Memory} (a : Nat) (bs : List Byte) (h : m.wf) :
    Memory.wf (Memory.placeBytes m a bs) := by
  induction bs generalizing m a with
  | nil => exact h
  | cons b bs ih =>
    simp only [Memory.placeBytes]
    split_ifs with ha
    · exact ih _ (Memory.wf_write b h ha)
    · exact h

/-- What a byte reads as after bytes were placed inside the memory. -/
theorem Memory.read_placeBytes (m : Memory) (a : Nat) (bs : List Byte) (b : Nat)
    (h : a + bs.length ≤ Config.memBytes) :
    Memory.read (Memory.placeBytes m a bs) b =
      if a ≤ b then bs[b - a]?.getD (Memory.read m b) else Memory.read m b := by
  induction bs generalizing m a with
  | nil => simp [Memory.placeBytes]
  | cons x bs ih =>
    rw [List.length_cons] at h
    rw [Memory.placeBytes, if_pos (by omega), ih _ _ (by omega)]
    rcases lt_trichotomy b a with hb | rfl | hb
    · rw [if_neg (by omega), if_neg (by omega), Memory.read_write_ne _ _ (by omega)]
    · simp
    · obtain ⟨k, rfl⟩ := Nat.exists_eq_add_of_le hb
      rw [if_pos (by omega), if_pos (by omega), Memory.read_write_ne _ _ (by omega),
        show a.succ + k - (a + 1) = k by omega, show a.succ + k - a = k + 1 by omega,
        List.getElem?_cons_succ]

/-- What a byte reads as after a write of a width: its byte of the Word inside the access, as before
outside. -/
theorem Memory.read_writeWidth (m : Memory) (a b : Nat) (v : Word) (w : Width) :
    Memory.read (Memory.writeWidth m a v w) b =
      if a ≤ b ∧ b < a + w.bytes then byteAt v (b - a) else Memory.read m b := by
  by_cases h : a ≤ b ∧ b < a + w.bytes
  · rw [if_pos h]
    cases w <;> simp only [Width.bytes] at h <;>
      simp only [Memory.writeWidth, Memory.read_write] <;>
      split_ifs <;> first | omega | (subst_vars; congr 1; omega)
  · rw [if_neg h]
    cases w <;> simp only [Width.bytes] at h <;>
      simp only [Memory.writeWidth, Memory.read_write] <;>
      split_ifs <;> first | rfl | omega

/-- The bytes of the array from an address on that lie inside it are the bytes read one by one. -/
theorem Memory.bytesFrom_getElem? (m : Memory) (a n k : Nat) :
    (Memory.bytesFrom m a n)[k]? =
      if k < n ∧ a + k < Config.memBytes then some (Memory.read m (a + k)) else none := by
  induction n generalizing a k with
  | zero => simp [Memory.bytesFrom]
  | succ n ih =>
    simp only [Memory.bytesFrom]
    by_cases ha : a < Config.memBytes
    · rw [if_pos ha]
      cases k with
      | zero => simp [ha]
      | succ k =>
        rw [List.getElem?_cons_succ, ih]
        simp only [Nat.add_lt_add_iff_right, Nat.add_assoc, Nat.add_comm 1 k]
    · rw [if_neg ha, if_neg (by omega)]
      rfl

end Sys2Proof.Machine
end

