-- ==== Sys2Proof/Laws/Bytes.lean ====
section
/-! SUPPORT. Bytes and little-endian numbers: the byte order helpers of the decoder and the memory
unit as arithmetic. -/

namespace Sys2Proof

theorem toNat_append_byte {n : Nat} (x : BitVec n) (b : Byte) :
    (x ++ b).toNat = b.toNat + 256 * x.toNat := by
  rw [BitVec.toNat_append, ← Nat.shiftLeft_add_eq_or_of_lt b.isLt, Nat.shiftLeft_eq]
  omega

theorem joinShort_toNat (b0 b1 : Byte) : (joinShort b0 b1).toNat = b0.toNat + 256 * b1.toNat :=
  toNat_append_byte _ _

theorem joinWord_toNat (b0 b1 b2 b3 : Byte) :
    (joinWord b0 b1 b2 b3).toNat =
      b0.toNat + 256 * (b1.toNat + 256 * (b2.toNat + 256 * b3.toNat)) := by
  unfold joinWord
  rw [toNat_append_byte, toNat_append_byte, toNat_append_byte]

theorem toNat_setWidth_word {n : Nat} (x : BitVec n) (h : n ≤ 32) :
    (x.setWidth 32).toNat = x.toNat := by
  rw [BitVec.toNat_setWidth, Nat.mod_eq_of_lt]
  exact lt_of_lt_of_le x.isLt (Nat.pow_le_pow_right (by omega) h)

/-- Byte `k` of a value is its quotient by `256 ^ k`, cut to 8 bits. -/
theorem byteAt_eq_div {n : Nat} (v : BitVec n) (k : Nat) :
    byteAt v k = BitVec.ofNat 8 (v.toNat / 256 ^ k) := by
  apply BitVec.eq_of_toNat_eq
  rw [byteAt, BitVec.extractLsb'_toNat, BitVec.toNat_ofNat, Nat.shiftRight_eq_div_pow, pow_mul,
    show (2 : Nat) ^ 8 = 256 from rfl]

/-- The bytes of a Word joined give the Word. -/
theorem joinWord_byteAt (v : Word) :
    joinWord (byteAt v 0) (byteAt v 1) (byteAt v 2) (byteAt v 3) = v := by
  apply BitVec.eq_of_toNat_eq
  have := v.isLt
  simp only [joinWord_toNat, byteAt_eq_div, BitVec.toNat_ofNat]
  omega

/-- The two bytes of a 16-bit value joined give the value. -/
theorem joinShort_byteAt (v : BitVec 16) : joinShort (byteAt v 0) (byteAt v 1) = v := by
  apply BitVec.eq_of_toNat_eq
  have := v.isLt
  simp only [joinShort_toNat, byteAt_eq_div, BitVec.toNat_ofNat]
  omega

namespace Machine

/-- The value an access reads is the little-endian number of its bytes (R32, R33). -/
theorem Memory.readWidth_toNat (m : Memory) (a : Nat) (w : Width) :
    (Memory.readWidth m a w).toNat = littleEndian m a w.bytes := by
  cases w
  · exact joinWord_toNat _ _ _ _
  · exact toNat_setWidth_word _ (by omega)
  · exact (toNat_setWidth_word _ (by omega)).trans (joinShort_toNat _ _)

/-- A checked write puts byte `k` of the Word at offset `k` and changes no other byte (R34). -/
theorem Memory.writtenAt_writeWidth (m : Memory) (a : Nat) (v : Word) (w : Width) :
    WrittenAt m (Memory.writeWidth m a v w) a w.bytes v := fun b => by
  rw [Memory.read_writeWidth]
  simp only [byteAt_eq_div]

end Machine

end Sys2Proof
end

