-- ==== Sys2Proof/Laws/Stack.lean ====
section
/-! SUPPORT. What a push and a pop do, said once: to the Words on the stack, to the pointer, and to
the slots. -/

namespace Sys2Proof.Machine

@[simp] theorem Stack.words_length (st : Stack) : st.words.length = st.ptr.val := by
  have := st.ptr.isLt
  simp [Stack.words]
  omega

theorem Stack.words_empty : Stack.empty.words = [] := rfl

/-- A stack that is full takes no push. -/
theorem Stack.push_full (st : Stack) (v : Word) (h : ¬ st.ptr.val < Config.stackWords) :
    st.push v = none := by
  simp only [Stack.push, dif_neg h]

/-- A push on a stack with room puts the Word on top of the others. -/
theorem Stack.push_room (st : Stack) (v : Word) (h : st.ptr.val < Config.stackWords) :
    ∃ st', st.push v = some st' ∧ st'.words = v :: st.words ∧
      st'.ptr.val = st.ptr.val + 1 ∧ st'.slots = st.slots.set st.ptr.val v h := by
  refine ⟨⟨st.slots.set st.ptr.val v h, ⟨st.ptr.val + 1, Nat.succ_lt_succ h⟩⟩,
    by simp only [Stack.push, dif_pos h], ?_, rfl, rfl⟩
  simp only [Stack.words, Vector.toList_set]
  rw [List.take_add_one, List.take_set_of_le le_rfl]
  simp [h]

/-- A pop of an empty stack. -/
theorem Stack.pop_empty (st : Stack) (h : ¬ 0 < st.ptr.val) : st.pop = none := by
  simp only [Stack.pop, dif_neg h]

/-- A pop of a stack that is not empty takes the top Word and leaves the slots as they are. -/
theorem Stack.pop_some (st : Stack) (h : 0 < st.ptr.val) :
    ∃ v st', st.pop = some (v, st') ∧ st.words = v :: st'.words ∧
      st'.ptr.val + 1 = st.ptr.val ∧ st'.slots = st.slots ∧
      st.slots[st.ptr.val - 1]? = some v := by
  have hlt := st.ptr.isLt
  have hb : st.ptr.val - 1 < Config.stackWords := by omega
  refine ⟨st.slots[st.ptr.val - 1], ⟨st.slots, ⟨st.ptr.val - 1, Nat.lt_succ_of_lt hb⟩⟩,
    by simp only [Stack.pop, dif_pos h], ?_, Nat.succ_pred_eq_of_pos h, rfl, by simp [hb]⟩
  simp only [Stack.words]
  obtain ⟨n, hn⟩ : ∃ n, st.ptr.val = n + 1 := ⟨st.ptr.val - 1, by omega⟩
  have hn' : st.ptr.val - 1 = n := by omega
  have hlen : n < st.slots.toList.length := by simp; omega
  simp only [hn]
  simp only [Nat.add_sub_cancel]
  rw [List.take_add_one, List.getElem?_eq_getElem hlen]
  simp

theorem Stack.pop_of_words_nil {st : Stack} (h : st.words = []) : st.pop = none :=
  st.pop_empty (by have := st.words_length; rw [h] at this; simp at this; omega)

theorem Stack.pop_of_words_cons {st : Stack} {v : Word} {w : List Word} (h : st.words = v :: w) :
    ∃ st', st.pop = some (v, st') ∧ st'.words = w := by
  have hl := st.words_length
  rw [h] at hl
  obtain ⟨v', st', hp, hw, -⟩ := st.pop_some (by simp at hl; omega)
  rw [h] at hw
  injection hw with h1 h2
  exact ⟨st', h1 ▸ hp, h2.symm⟩

theorem Stack.push_of_length {st : Stack} (v : Word)
    (h : st.words.length < Config.stackWords) :
    ∃ st', st.push v = some st' ∧ st'.words = v :: st.words := by
  rw [st.words_length] at h
  obtain ⟨st', hp, hw, -⟩ := st.push_room v h
  exact ⟨st', hp, hw⟩

theorem Stack.push_of_full {st : Stack} (v : Word)
    (h : ¬ st.words.length < Config.stackWords) : st.push v = none := by
  rw [st.words_length] at h
  exact st.push_full v h

/-- No stack holds more Words than it has slots (R14). -/
theorem Stack.words_length_le (st : Stack) : st.words.length ≤ Config.stackWords := by
  rw [st.words_length]
  exact Nat.le_of_lt_succ st.ptr.isLt

theorem Stack.length_le_of_words {st : Stack} {w : List Word} (h : st.words = w) :
    w.length ≤ 256 := h ▸ st.words_length_le

end Sys2Proof.Machine
end

