-- ==== Sys2Proof/Laws/State.lean ====
section
/-! SUPPORT. What each named update of a state does to each field, so that no later proof unfolds a
record update. -/

namespace Sys2Proof.Machine

@[simp] theorem raise_mem (c : Cause) (s : State) : (raise c s).mem = s.mem := rfl
@[simp] theorem raise_wst (c : Cause) (s : State) : (raise c s).wst = s.wst := rfl
@[simp] theorem raise_rst (c : Cause) (s : State) : (raise c s).rst = s.rst := rfl
@[simp] theorem raise_pc (c : Cause) (s : State) : (raise c s).pc = s.pc := rfl
@[simp] theorem raise_runState (c : Cause) (s : State) : (raise c s).runState = .faulted := rfl
@[simp] theorem raise_faultCause (c : Cause) (s : State) :
    (raise c s).faultCause = causeCode c := rfl
@[simp] theorem raise_exitStatus (c : Cause) (s : State) :
    (raise c s).exitStatus = s.exitStatus := rfl
@[simp] theorem raise_out (c : Cause) (s : State) : (raise c s).out = s.out := rfl

@[simp] theorem advance_mem (n : Nat) (s : State) : (advance n s).mem = s.mem := rfl
@[simp] theorem advance_wst (n : Nat) (s : State) : (advance n s).wst = s.wst := rfl
@[simp] theorem advance_rst (n : Nat) (s : State) : (advance n s).rst = s.rst := rfl
@[simp] theorem advance_pc (n : Nat) (s : State) :
    (advance n s).pc = s.pc + BitVec.ofNat 32 n := rfl
@[simp] theorem advance_runState (n : Nat) (s : State) : (advance n s).runState = s.runState := rfl
@[simp] theorem advance_faultCause (n : Nat) (s : State) :
    (advance n s).faultCause = s.faultCause := rfl
@[simp] theorem advance_exitStatus (n : Nat) (s : State) :
    (advance n s).exitStatus = s.exitStatus := rfl
@[simp] theorem advance_out (n : Nat) (s : State) : (advance n s).out = s.out := rfl

@[simp] theorem placeAtPc_mem (bs : List Byte) (s : State) :
    (placeAtPc bs s).mem = s.mem.placeBytes s.pc.toNat bs := rfl
@[simp] theorem placeAtPc_pc (bs : List Byte) (s : State) : (placeAtPc bs s).pc = s.pc := rfl
@[simp] theorem placeAtPc_wst (bs : List Byte) (s : State) : (placeAtPc bs s).wst = s.wst := rfl
@[simp] theorem placeAtPc_rst (bs : List Byte) (s : State) : (placeAtPc bs s).rst = s.rst := rfl
@[simp] theorem placeAtPc_runState (bs : List Byte) (s : State) :
    (placeAtPc bs s).runState = s.runState := rfl
@[simp] theorem placeAtPc_faultCause (bs : List Byte) (s : State) :
    (placeAtPc bs s).faultCause = s.faultCause := rfl
@[simp] theorem placeAtPc_exitStatus (bs : List Byte) (s : State) :
    (placeAtPc bs s).exitStatus = s.exitStatus := rfl
@[simp] theorem placeAtPc_out (bs : List Byte) (s : State) : (placeAtPc bs s).out = s.out := rfl

@[simp] theorem Session.core_loading (image : List Byte) :
    (Session.loading image).core =
      { State.reset with mem := State.reset.mem.placeBytes 0 image } := rfl
@[simp] theorem Session.core_stepping (s : State) : (Session.stepping s).core = s := rfl
@[simp] theorem Session.core_reset : Session.reset.core = State.reset := rfl

@[simp] theorem Res.andThen_ok {α β : Type} (v : α) (s : State) (k : α → State → Res β) :
    (Res.ok v s).andThen k = k v s := rfl
@[simp] theorem Res.andThen_raised {α β : Type} (c : Cause) (s : State) (k : α → State → Res β) :
    (Res.raised c s : Res α).andThen k = .raised c s := rfl
@[simp] theorem finish_ok (u : Unit) (s : State) : finish (.ok u s) = .next s := rfl
@[simp] theorem finish_raised (c : Cause) (s : State) :
    finish (.raised c s) = .next (raise c s) := rfl

/-- Inversion of sequencing: the first part answered a value, or it raised and ended the whole. -/
theorem Res.andThen_cases {α β : Type} {x : Res α} {k : α → State → Res β} {y : Res β}
    (h : x.andThen k = y) :
    (∃ v s, x = .ok v s ∧ k v s = y) ∨ (∃ c s, x = .raised c s ∧ y = .raised c s) := by
  cases x with
  | ok v s => exact .inl ⟨v, s, rfl, h⟩
  | raised c s => exact .inr ⟨c, s, rfl, h.symm⟩

end Sys2Proof.Machine
end

