-- ==== Sys2Proof/Laws/Ops.lean ====
section
/-! SUPPORT. The stack primitives on states, said once for each: when they answer, with what, and
what they leave unchanged. -/

namespace Sys2Proof.Machine

theorem wPop_of_nil {s : State} (h : s.wst.words = []) : wPop s = .raised .wstUnderflow s := by
  simp only [wPop, Stack.pop_of_words_nil h]

theorem wPop_of_cons {s : State} {v : Word} {w : List Word} (h : s.wst.words = v :: w) :
    ∃ st, wPop s = .ok v { s with wst := st } ∧ st.words = w := by
  obtain ⟨st, hp, hw⟩ := Stack.pop_of_words_cons h
  exact ⟨st, by simp only [wPop, hp], hw⟩

theorem rPop_of_nil {s : State} (h : s.rst.words = []) : rPop s = .raised .rstUnderflow s := by
  simp only [rPop, Stack.pop_of_words_nil h]

theorem rPop_of_cons {s : State} {v : Word} {w : List Word} (h : s.rst.words = v :: w) :
    ∃ st, rPop s = .ok v { s with rst := st } ∧ st.words = w := by
  obtain ⟨st, hp, hw⟩ := Stack.pop_of_words_cons h
  exact ⟨st, by simp only [rPop, hp], hw⟩

theorem wPush_of_room {s : State} (v : Word) (h : s.wst.words.length < Config.stackWords) :
    ∃ st, wPush v s = .ok () { s with wst := st } ∧ st.words = v :: s.wst.words := by
  obtain ⟨st, hp, hw⟩ := Stack.push_of_length v h
  exact ⟨st, by simp only [wPush, hp], hw⟩

theorem wPush_of_full {s : State} (v : Word) (h : ¬ s.wst.words.length < Config.stackWords) :
    wPush v s = .raised .wstOverflow s := by
  simp only [wPush, Stack.push_of_full v h]

theorem rPush_of_room {s : State} (v : Word) (h : s.rst.words.length < Config.stackWords) :
    ∃ st, rPush v s = .ok () { s with rst := st } ∧ st.words = v :: s.rst.words := by
  obtain ⟨st, hp, hw⟩ := Stack.push_of_length v h
  exact ⟨st, by simp only [rPush, hp], hw⟩

theorem rPush_of_full {s : State} (v : Word) (h : ¬ s.rst.words.length < Config.stackWords) :
    rPush v s = .raised .rstOverflow s := by
  simp only [rPush, Stack.push_of_full v h]

/-! ### The same inside a sequence, where the working stack has already been replaced -/

theorem wPop_with_cons {s : State} {st : Stack} {v : Word} {w : List Word} (h : st.words = v :: w) :
    ∃ st', wPop { s with wst := st } = .ok v { s with wst := st' } ∧ st'.words = w :=
  wPop_of_cons (s := { s with wst := st }) h

theorem wPop_with_nil {s : State} {st : Stack} (h : st.words = []) :
    wPop { s with wst := st } = .raised .wstUnderflow { s with wst := st } :=
  wPop_of_nil (s := { s with wst := st }) h

theorem wPush_with_room {s : State} {st : Stack} (v : Word) {w : List Word} (h : st.words = w)
    (hl : w.length < Config.stackWords) :
    ∃ st', wPush v { s with wst := st } = .ok () { s with wst := st' } ∧ st'.words = v :: w := by
  obtain ⟨st', e, hw⟩ := wPush_of_room (s := { s with wst := st }) v (h ▸ hl)
  exact ⟨st', e, hw.trans (h ▸ rfl)⟩

theorem wPush_with_full {s : State} {st : Stack} (v : Word) {w : List Word} (h : st.words = w)
    (hl : ¬ w.length < Config.stackWords) :
    wPush v { s with wst := st } = .raised .wstOverflow { s with wst := st } :=
  wPush_of_full (s := { s with wst := st }) v (h ▸ hl)

/-- One pop that has a Word to take. -/
theorem wPop_then {β : Type} {s : State} (k : Word → State → Res β) {a : Word} {w : List Word}
    (h : s.wst.words = a :: w) :
    ∃ st : Stack, st.words = w ∧ (wPop s).andThen k = k a { s with wst := st } := by
  obtain ⟨st, e, hw⟩ := wPop_of_cons h
  exact ⟨st, hw, by rw [e, Res.andThen_ok]⟩

theorem wPop_then_nil {β : Type} {s : State} (k : Word → State → Res β) (h : s.wst.words = []) :
    (wPop s).andThen k = .raised .wstUnderflow s := by
  rw [wPop_of_nil h, Res.andThen_raised]

/-- Two pops that have Words to take, the first of them the top. -/
theorem wPop_wPop_then {β : Type} {s : State} (k : Word → Word → State → Res β) {a b : Word}
    {w : List Word} (h : s.wst.words = b :: a :: w) :
    ∃ st : Stack, st.words = w ∧
      ((wPop s).andThen fun b s => (wPop s).andThen fun a s => k b a s) =
        k b a { s with wst := st } := by
  obtain ⟨s1, w1, e1⟩ := wPop_then (fun b s => (wPop s).andThen fun a s => k b a s) h
  obtain ⟨s2, e2, w2⟩ := wPop_with_cons (s := s) w1
  exact ⟨s2, w2, by rw [e1, e2, Res.andThen_ok]⟩

/-- Two pops on fewer than two Words: the Words there are gone and the underflow is raised. -/
theorem wPop_wPop_short {β : Type} {s : State} (k : Word → Word → State → Res β)
    (h : s.wst.words.length < 2) :
    ∃ st : Stack, st.words = [] ∧
      ((wPop s).andThen fun b s => (wPop s).andThen fun a s => k b a s) =
        .raised .wstUnderflow { s with wst := st } := by
  match hw : s.wst.words with
  | [] => exact ⟨s.wst, hw, wPop_then_nil _ hw⟩
  | [b] =>
    obtain ⟨s1, w1, e1⟩ := wPop_then (fun b s => (wPop s).andThen fun a s => k b a s) hw
    exact ⟨s1, w1, by rw [e1, wPop_with_nil w1, Res.andThen_raised]⟩
  | _ :: _ :: _ => rw [hw] at h; simp only [List.length_cons] at h; omega

/-- Everything `wPop` can do. -/
theorem wPop_cases (s : State) :
    (s.wst.words = [] ∧ wPop s = .raised .wstUnderflow s) ∨
      ∃ v st, wPop s = .ok v { s with wst := st } ∧ s.wst.words = v :: st.words := by
  cases h : s.wst.words with
  | nil => exact .inl ⟨rfl, wPop_of_nil h⟩
  | cons v w =>
    obtain ⟨st, hp, hw⟩ := wPop_of_cons h
    exact .inr ⟨v, st, hp, by rw [hw]⟩

/-- Everything `rPop` can do. -/
theorem rPop_cases (s : State) :
    (s.rst.words = [] ∧ rPop s = .raised .rstUnderflow s) ∨
      ∃ v st, rPop s = .ok v { s with rst := st } ∧ s.rst.words = v :: st.words := by
  cases h : s.rst.words with
  | nil => exact .inl ⟨rfl, rPop_of_nil h⟩
  | cons v w =>
    obtain ⟨st, hp, hw⟩ := rPop_of_cons h
    exact .inr ⟨v, st, hp, by rw [hw]⟩

/-- Everything `wPush` can do. -/
theorem wPush_cases (v : Word) (s : State) :
    (s.wst.words.length = Config.stackWords ∧ wPush v s = .raised .wstOverflow s) ∨
      ∃ st, wPush v s = .ok () { s with wst := st } ∧ st.words = v :: s.wst.words := by
  by_cases h : s.wst.words.length < Config.stackWords
  · exact .inr (wPush_of_room v h)
  · exact .inl ⟨le_antisymm s.wst.words_length_le (not_lt.1 h), wPush_of_full v h⟩

/-- Everything `rPush` can do. -/
theorem rPush_cases (v : Word) (s : State) :
    (s.rst.words.length = Config.stackWords ∧ rPush v s = .raised .rstOverflow s) ∨
      ∃ st, rPush v s = .ok () { s with rst := st } ∧ st.words = v :: s.rst.words := by
  by_cases h : s.rst.words.length < Config.stackWords
  · exact .inr (rPush_of_room v h)
  · exact .inl ⟨le_antisymm s.rst.words_length_le (not_lt.1 h), rPush_of_full v h⟩

/-- Everything `memRead` can do: the bound fails, or a value and no change of state (R33, R38). -/
theorem memRead_cases (a : Word) (w : Width) (s : State) :
    (Config.memBytes < a.toNat + w.bytes ∧ memRead a w s = .raised .memoryAccessError s) ∨
      (a.toNat + w.bytes ≤ Config.memBytes ∧
        memRead a w s = .ok (s.mem.readWidth a.toNat w) s) := by
  by_cases h : Config.memBytes < a.toNat + w.bytes
  · exact .inl ⟨h, by simp only [memRead, gt_iff_lt, if_pos h]⟩
  · exact .inr ⟨not_lt.1 h, by simp only [memRead, gt_iff_lt, if_neg h]⟩

/-- Everything `memWrite` can do: the bound fails and nothing is written, or the bytes of the access
are (R34). -/
theorem memWrite_cases (a : Word) (w : Width) (v : Word) (s : State) :
    (Config.memBytes < a.toNat + w.bytes ∧ memWrite a w v s = .raised .memoryAccessError s) ∨
      (a.toNat + w.bytes ≤ Config.memBytes ∧
        memWrite a w v s = .ok () { s with mem := s.mem.writeWidth a.toNat v w }) := by
  by_cases h : Config.memBytes < a.toNat + w.bytes
  · exact .inl ⟨h, by simp only [memWrite, gt_iff_lt, if_pos h]⟩
  · exact .inr ⟨not_lt.1 h, by simp only [memWrite, gt_iff_lt, if_neg h]⟩

end Sys2Proof.Machine
end

