-- ==== Sys2Proof/Laws/Exec.lean ====
section
/-! SUPPORT. What any instruction can do to a state, said once: every meaning is a sequence of the
primitives, so a property that each primitive it uses keeps is kept by the instruction. Frames and
invariants follow from `exec_preserves` by saying which primitives matter. -/

namespace Sys2Proof.Machine

/-- A property of the state a computation ends in, whether it answered a value or raised. -/
def Res.All {α : Type} (P : State → Prop) : Res α → Prop
  | .ok _ s => P s
  | .raised _ s => P s

@[simp] theorem Res.all_ok {α : Type} {P : State → Prop} (v : α) (s : State) :
    (Res.ok v s).All P ↔ P s := Iff.rfl

@[simp] theorem Res.all_raised {α : Type} {P : State → Prop} (c : Cause) (s : State) :
    (Res.raised c s : Res α).All P ↔ P s := Iff.rfl

theorem Res.all_andThen {α β : Type} {P : State → Prop} {x : Res α} {k : α → State → Res β}
    (hx : x.All P) (hk : ∀ v t, P t → (k v t).All P) : (x.andThen k).All P := by
  cases x with
  | ok v t => exact hk v t hx
  | raised c t => exact hx

theorem wPop_all {P : State → Prop} {s : State} (h0 : P s)
    (h : ∀ st, P { s with wst := st }) : (wPop s).All P := by
  rcases wPop_cases s with ⟨-, e⟩ | ⟨v, st, e, -⟩ <;> rw [e]
  · exact h0
  · exact h st

theorem rPop_all {P : State → Prop} {s : State} (h0 : P s)
    (h : ∀ st, P { s with rst := st }) : (rPop s).All P := by
  rcases rPop_cases s with ⟨-, e⟩ | ⟨v, st, e, -⟩ <;> rw [e]
  · exact h0
  · exact h st

theorem wPush_all {P : State → Prop} {s : State} (v : Word) (h0 : P s)
    (h : ∀ st, P { s with wst := st }) : (wPush v s).All P := by
  rcases wPush_cases v s with ⟨-, e⟩ | ⟨st, e, -⟩ <;> rw [e]
  · exact h0
  · exact h st

theorem rPush_all {P : State → Prop} {s : State} (v : Word) (h0 : P s)
    (h : ∀ st, P { s with rst := st }) : (rPush v s).All P := by
  rcases rPush_cases v s with ⟨-, e⟩ | ⟨st, e, -⟩ <;> rw [e]
  · exact h0
  · exact h st

theorem memRead_all {P : State → Prop} {s : State} (a : Word) (w : Width) (h0 : P s) :
    (memRead a w s).All P := by
  rcases memRead_cases a w s with ⟨-, e⟩ | ⟨-, e⟩ <;> rw [e] <;> exact h0

theorem memWrite_all {P : State → Prop} {s : State} (a : Word) (w : Width) (v : Word) (h0 : P s)
    (h : a.toNat + w.bytes ≤ Config.memBytes →
      P { s with mem := s.mem.writeWidth a.toNat v w }) : (memWrite a w v s).All P := by
  rcases memWrite_cases a w v s with ⟨-, e⟩ | ⟨hb, e⟩ <;> rw [e]
  · exact h0
  · exact h hb

theorem needWidth_all {P : State → Prop} {s : State} (size : Option Width) (h0 : P s) :
    (needWidth size s).All P := by
  cases size <;> exact h0

/-- A property of the state in which a computation raises, if it does. -/
def Res.RaisesIn {α : Type} (P : State → Prop) : Res α → Prop
  | .ok _ _ => True
  | .raised _ s => P s

theorem Res.raisesIn_of_all {α : Type} {P : State → Prop} {x : Res α} (h : x.All P) :
    x.RaisesIn P := by
  cases x with
  | ok v s => trivial
  | raised c s => exact h

theorem Res.raisesIn_andThen {α β : Type} {P : State → Prop} {x : Res α}
    {k : α → State → Res β} (hx : x.All P) (hk : ∀ v t, P t → (k v t).RaisesIn P) :
    (x.andThen k).RaisesIn P := by
  cases x with
  | ok v t => exact hk v t hx
  | raised c t => exact hx

/-- A write that raises has written nothing (R34). -/
theorem memWrite_raisesIn {P : State → Prop} {s : State} (a : Word) (w : Width) (v : Word)
    (h0 : P s) : (memWrite a w v s).RaisesIn P := by
  rcases memWrite_cases a w v s with ⟨-, e⟩ | ⟨-, e⟩ <;> rw [e]
  · exact h0
  · trivial

/-- The instructions that use the return stack (R13). -/
def usesReturnStack : Instr → Bool
  | .call _ | .ccall _ | .ret | .cret | .wtr | .rtw => true
  | _ => false

/-- The instructions that write `pc` after the fetch (R15). -/
def writesPc : Instr → Bool
  | .litW _ | .litB _ | .litS _ | .call _ | .ccall _ | .ret | .cret | .jmp _ | .cjmp _ => true
  | _ => false

/-- The instructions that write memory (R31). -/
def writesMemory : Instr → Bool
  | .storeW _ | .storeB _ | .storeS _ => true
  | _ => false

/-- Every instruction answers a next state. -/
theorem exec_answers (i : Instr) (s : State) : ∃ t, exec i s = .next t := by
  have key : ∀ x : Res Unit, ∃ t, finish x = .next t := fun x => by
    cases x with
    | ok u t => exact ⟨t, rfl⟩
    | raised c t => exact ⟨raise c t, rfl⟩
  cases i with
  | nop => exact ⟨s, rfl⟩
  | litX => exact ⟨_, rfl⟩
  | _ => exact key _

theorem finish_preserves {P : State → Prop} {x : Res Unit} {t : State} (hx : x.All P)
    (hc : ∀ c t, P t → P (raise c t)) (h : finish x = .next t) : P t := by
  cases x with
  | ok u s => injection h with h; exact h ▸ hx
  | raised c s => injection h with h; exact h ▸ hc c s hx

/-- A property that every primitive an instruction uses keeps is kept by the instruction. -/
theorem exec_preserves {P : State → Prop} {i : Instr} {s t : State}
    (hw : ∀ t st, P t → P { t with wst := st })
    (hr : usesReturnStack i = true → ∀ t st, P t → P { t with rst := st })
    (hp : writesPc i = true → ∀ t v, P t → P { t with pc := v })
    (hm : writesMemory i = true → ∀ t a w v, a + w.bytes ≤ Config.memBytes → P t →
      P { t with mem := t.mem.writeWidth a v w })
    (hh : i = .trap → ∀ t v, P t → P { t with exitStatus := v, runState := .halted })
    (ho : i = .trap → ∀ t v, P t → P { t with out := t.out ++ [v] })
    (hc : ∀ c t, P t → P (raise c t))
    (hs : P s) (h : exec i s = .next t) : P t := by
  have wpop : ∀ t, P t → (wPop t).All P := fun t ht => wPop_all ht fun st => hw t st ht
  have wpush : ∀ v t, P t → (wPush v t).All P := fun v t ht => wPush_all v ht fun st => hw t st ht
  have rpop : usesReturnStack i = true → ∀ t, P t → (rPop t).All P :=
    fun hi t ht => rPop_all ht fun st => hr hi t st ht
  have rpush : usesReturnStack i = true → ∀ v t, P t → (rPush v t).All P :=
    fun hi v t ht => rPush_all v ht fun st => hr hi t st ht
  have mwrite : writesMemory i = true → ∀ a w v t, P t → (memWrite a w v t).All P :=
    fun hi a w v t ht => memWrite_all a w v ht fun hb => hm hi t a.toNat w v hb ht
  cases i with
  | nop => exact finish_preserves (x := .ok () s) hs hc h
  | litX => exact finish_preserves (x := .raised .invalidInstruction s) hs hc h
  | _ =>
    refine finish_preserves ?_ hc h
    try unfold pushLiteral
    try unfold binary
    try unfold signExtendTop
    try unfold loadForm
    try unfold storeForm
    repeat' first
      | exact hs
      | assumption
      | exact wpop _ (by assumption)
      | exact wpush _ _ (by assumption)
      | exact rpop rfl _ (by assumption)
      | exact rpush rfl _ _ (by assumption)
      | exact mwrite rfl _ _ _ _ (by assumption)
      | exact memRead_all _ _ (by assumption)
      | exact needWidth_all _ (by assumption)
      | exact hp rfl _ _ (by assumption)
      | exact hh rfl _ _ (by assumption)
      | exact ho rfl _ _ (by assumption)
      | refine Res.all_andThen ?_ fun _ _ _ => ?_
      | split

end Sys2Proof.Machine
end

