-- ==== Sys2Proof/Laws/Fetch.lean ====
section
/-! SUPPORT. What the decoder and the fetch can do, said once, and the inversion of one step of a
running core. -/

namespace Sys2Proof

/-- Every opcode field has an opcode (R54, R59). -/
theorem opOfBits_isSome (n : BitVec 5) : ∃ op, opOfBits n = some op := by
  have h := n.isLt
  exact ⟨opcodeTable[n.toNat]'h, List.getElem?_eq_getElem h⟩

/-- Everything the decoder can do with an instruction byte that is not `lit`: an instruction of one
byte, whatever follows. -/
theorem decodeOp_of_ne_lit {op : Op} (h : op ≠ .lit) (size : Option Width) (rel : Bool) :
    ∃ i, (encode i).length = 1 ∧ ∀ rest, decodeOp op size rel rest = .ok (i, rest) := by
  cases op with
  | lit => exact absurd rfl h
  | fetch => rcases size with _ | (_ | _ | _) <;> exact ⟨_, rfl, fun _ => rfl⟩
  | store => rcases size with _ | (_ | _ | _) <;> exact ⟨_, rfl, fun _ => rfl⟩
  | sext => rcases size with _ | (_ | _ | _) <;> exact ⟨_, rfl, fun _ => rfl⟩
  | _ => exact ⟨_, rfl, fun _ => rfl⟩

/-- The opcode with field value 1 is `lit`, and no other field value is. -/
theorem opOfBits_lit (n : BitVec 5) : opOfBits n = some .lit ↔ n = 1 := by
  revert n; decide

/-- Everything the decoder can do with a first byte: `lit` by its size field, or an instruction of
one byte. -/
theorem decode_cons_cases (b : Byte) :
    (opField b = 1 ∧ ∀ rest, decode (b :: rest) = decodeLit (widthOfBits (sizeField b)) rest) ∨
      (opField b ≠ 1 ∧
        ∃ i, (encode i).length = 1 ∧ ∀ rest, decode (b :: rest) = .ok (i, rest)) := by
  obtain ⟨op, h⟩ := opOfBits_isSome (opField b)
  by_cases hl : op = .lit
  · subst hl
    exact .inl ⟨(opOfBits_lit _).1 h, fun rest => by simp only [decode, h, decodeOp]⟩
  · obtain ⟨i, hi, he⟩ := decodeOp_of_ne_lit hl (widthOfBits (sizeField b)) (relField b)
    refine .inr ⟨fun hn => hl ?_, i, hi, fun rest => by simp only [decode, h, he]⟩
    exact Option.some.inj (h.symm.trans ((opOfBits_lit _).2 hn))

theorem decodeLit_ne_noInstructionByte (size : Option Width) (rest : List Byte) :
    decodeLit size rest ≠ .error .noInstructionByte := by
  unfold decodeLit
  repeat' split
  all_goals nofun

theorem decodeLit_ne_noHandler (size : Option Width) (rest : List Byte) :
    decodeLit size rest ≠ .error .noHandler := by
  unfold decodeLit
  repeat' split
  all_goals nofun

/-- The default arm of R75 is reached by no bytes (R59). -/
theorem decode_ne_noHandler (bytes : List Byte) : decode bytes ≠ .error .noHandler := by
  cases bytes with
  | nil => nofun
  | cons b rest =>
    rcases decode_cons_cases b with ⟨-, e⟩ | ⟨-, i, -, e⟩ <;> rw [e]
    · exact decodeLit_ne_noHandler _ _
    · nofun

theorem decode_cons_ne_noInstructionByte (b : Byte) (rest : List Byte) :
    decode (b :: rest) ≠ .error .noInstructionByte := by
  rcases decode_cons_cases b with ⟨-, e⟩ | ⟨-, i, -, e⟩ <;> rw [e]
  · exact decodeLit_ne_noInstructionByte _ _
  · nofun

namespace Machine

/-- The bytes at a `pc` inside the memory begin with the byte there. -/
theorem fetchBytes_of_lt {s : State} (h : s.pc.toNat < Config.memBytes) :
    fetchBytes s = s.mem.read s.pc.toNat :: s.mem.bytesFrom (s.pc.toNat + 1) 4 := if_pos h

theorem fetchBytes_of_ge {s : State} (h : Config.memBytes ≤ s.pc.toNat) : fetchBytes s = [] :=
  if_neg (not_lt.2 h)

/-- Everything the fetch can do (R73, R130). -/
theorem fetchInstr_cases (s : State) :
    (Config.memBytes ≤ s.pc.toNat ∧ fetchInstr s = .raised .memoryAccessError s) ∨
      (s.pc.toNat < Config.memBytes ∧
        ((∃ i tail, decode (fetchBytes s) = .ok (i, tail) ∧ fetchInstr s = .ok i (advance 1 s)) ∨
          (decode (fetchBytes s) = .error .immediateCutShort ∧
            fetchInstr s = .raised .memoryAccessError (advance 1 s)))) := by
  by_cases h : s.pc.toNat < Config.memBytes
  · refine .inr ⟨h, ?_⟩
    cases hd : decode (fetchBytes s) with
    | ok p => exact .inl ⟨p.1, p.2, rfl, by simp only [fetchInstr, hd]⟩
    | error e =>
      cases e with
      | immediateCutShort => exact .inr ⟨rfl, by simp only [fetchInstr, hd]⟩
      | noHandler => exact absurd hd (decode_ne_noHandler _)
      | noInstructionByte =>
        exact absurd (fetchBytes_of_lt h ▸ hd) (decode_cons_ne_noInstructionByte _ _)
  · have h := not_lt.1 h
    exact .inl ⟨h, by simp only [fetchInstr, fetchBytes_of_ge h, decode]⟩

/-- Everything a step of a running core can do: the fetch fails and the core faults, or it executes
the instruction fetched. -/
theorem step_running_cases {s : State} (hr : s.runState = .running) :
    (Config.memBytes ≤ s.pc.toNat ∧ step s = .next (raise .memoryAccessError s)) ∨
      (s.pc.toNat < Config.memBytes ∧
        ((∃ i tail, decode (fetchBytes s) = .ok (i, tail) ∧ step s = exec i (advance 1 s)) ∨
          (decode (fetchBytes s) = .error .immediateCutShort ∧
            step s = .next (raise .memoryAccessError (advance 1 s))))) := by
  rcases fetchInstr_cases s with ⟨h, e⟩ | ⟨h, ⟨i, tail, hd, e⟩ | ⟨hd, e⟩⟩
  · exact .inl ⟨h, by simp only [step, hr, e]⟩
  · exact .inr ⟨h, .inl ⟨i, tail, hd, by simp only [step, hr, e]⟩⟩
  · exact .inr ⟨h, .inr ⟨hd, by simp only [step, hr, e]⟩⟩

/-- A core that does not run answers a step with itself (R80). -/
theorem step_stopped {s : State} (hr : s.runState ≠ .running) : step s = .next s := by
  cases h : s.runState with
  | running => exact absurd h hr
  | halted => simp only [step, h]
  | faulted => simp only [step, h]

end Machine

end Sys2Proof
end

