-- ==== Sys2Proof/Laws/Forms.lean ====
section
/-! SUPPORT. The four computations that several instructions share, each described once: the literal
push, the two-operand form, the load and the store. -/

namespace Sys2Proof.Machine

/-- `pushLiteral` with room. -/
theorem pushLiteral_of_room {s : State} (v : Word) (n : Nat)
    (h : s.wst.words.length < Config.stackWords) :
    ∃ st : Stack, st.words = v :: s.wst.words ∧
      pushLiteral v n s = .ok () (advance n { s with wst := st }) := by
  obtain ⟨st, e, hw⟩ := wPush_of_room v h
  exact ⟨st, hw, by rw [pushLiteral, e, Res.andThen_ok]⟩

/-- `pushLiteral` on a full stack: nothing changes, `pc` included. -/
theorem pushLiteral_of_full {s : State} (v : Word) (n : Nat)
    (h : ¬ s.wst.words.length < Config.stackWords) :
    pushLiteral v n s = .raised .wstOverflow s := by
  rw [pushLiteral, wPush_of_full v h, Res.andThen_raised]

/-- `binary` on two Words or more: there is always room for the one result. -/
theorem binary_of_two {s : State} (f : Word → Word → Word) {a b : Word} {w : List Word}
    (h : s.wst.words = b :: a :: w) :
    ∃ st : Stack, st.words = f a b :: w ∧ binary f s = .ok () { s with wst := st } := by
  have hl := Stack.length_le_of_words h
  simp only [List.length_cons] at hl
  obtain ⟨s1, w1, e1⟩ := wPop_wPop_then (fun b a s => wPush (f a b) s) h
  obtain ⟨s2, e2, w2⟩ := wPush_with_room (s := s) (f a b) w1 (show w.length < 256 by omega)
  exact ⟨s2, w2, by rw [binary, e1, e2]⟩

/-- `binary` on fewer than two Words: those popped are gone. -/
theorem binary_of_short {s : State} (f : Word → Word → Word) (h : s.wst.words.length < 2) :
    ∃ st : Stack, st.words = [] ∧ binary f s = .raised .wstUnderflow { s with wst := st } :=
  wPop_wPop_short _ h

/-- `loadForm` without an address. -/
theorem loadForm_of_nil {s : State} (size : Option Width) (rel : Bool) (h : s.wst.words = []) :
    loadForm size rel s = .raised .wstUnderflow s := wPop_then_nil _ h

/-- `loadForm` with size field `11`: the address is popped. -/
theorem loadForm_none {s : State} (rel : Bool) {x : Word} {w : List Word}
    (h : s.wst.words = x :: w) :
    ∃ st : Stack, st.words = w ∧
      loadForm none rel s = .raised .invalidInstruction { s with wst := st } :=
  wPop_then _ h

/-- `loadForm` with an address: the bound fails after the pop, or the value takes its place. -/
theorem loadForm_some {s : State} (size : Width) (rel : Bool) {x : Word} {w : List Word}
    (h : s.wst.words = x :: w) :
    (Config.memBytes < (effAddr x rel s).toNat + size.bytes → ∃ st : Stack, st.words = w ∧
      loadForm (some size) rel s = .raised .memoryAccessError { s with wst := st }) ∧
    ((effAddr x rel s).toNat + size.bytes ≤ Config.memBytes → ∃ st : Stack,
      st.words = s.mem.readWidth (effAddr x rel s).toNat size :: w ∧
      loadForm (some size) rel s = .ok () { s with wst := st }) := by
  have hl := Stack.length_le_of_words h
  simp only [List.length_cons] at hl
  obtain ⟨s1, w1, e1⟩ := wPop_then
    (fun x s => (memRead (effAddr x rel s) size s).andThen fun v s => wPush v s) h
  have e1 : loadForm (some size) rel s = _ := e1
  refine ⟨fun hb => ⟨s1, w1, ?_⟩, fun hb => ?_⟩
  · rcases memRead_cases (effAddr x rel s) size { s with wst := s1 } with ⟨-, e⟩ | ⟨hn, -⟩
    · exact e1.trans (by rw [show effAddr x rel { s with wst := s1 } = effAddr x rel s from rfl, e,
        Res.andThen_raised])
    · omega
  · obtain ⟨s2, e2, w2⟩ := wPush_with_room (s := s)
      (s.mem.readWidth (effAddr x rel s).toNat size) w1 (show w.length < 256 by omega)
    refine ⟨s2, w2, ?_⟩
    rcases memRead_cases (effAddr x rel s) size { s with wst := s1 } with ⟨hn, -⟩ | ⟨-, e⟩
    · omega
    · exact e1.trans (by rw [show effAddr x rel { s with wst := s1 } = effAddr x rel s from rfl, e,
        Res.andThen_ok, e2])

/-- `storeForm` without both Words. -/
theorem storeForm_of_short {s : State} (size : Option Width) (rel : Bool)
    (h : s.wst.words.length < 2) :
    ∃ st : Stack, st.words = [] ∧
      storeForm size rel s = .raised .wstUnderflow { s with wst := st } := wPop_wPop_short _ h

/-- `storeForm` with size field `11`: both Words are popped. -/
theorem storeForm_none {s : State} (rel : Bool) {x a : Word} {w : List Word}
    (h : s.wst.words = x :: a :: w) :
    ∃ st : Stack, st.words = w ∧
      storeForm none rel s = .raised .invalidInstruction { s with wst := st } :=
  wPop_wPop_then (fun _ _ s => raiseInvalid s) h

/-- `storeForm` with both Words: the bound fails and nothing is written, or the bytes are. -/
theorem storeForm_some {s : State} (size : Width) (rel : Bool) {x a : Word} {w : List Word}
    (h : s.wst.words = x :: a :: w) :
    ∃ st : Stack, st.words = w ∧
      (Config.memBytes < (effAddr x rel s).toNat + size.bytes →
        storeForm (some size) rel s = .raised .memoryAccessError { s with wst := st }) ∧
      ((effAddr x rel s).toNat + size.bytes ≤ Config.memBytes →
        storeForm (some size) rel s = .ok ()
          { s with wst := st, mem := s.mem.writeWidth (effAddr x rel s).toNat a size }) := by
  obtain ⟨s1, w1, e1⟩ := wPop_wPop_then (fun x a s => memWrite (effAddr x rel s) size a s) h
  have e1 : storeForm (some size) rel s = _ := e1
  refine ⟨s1, w1, fun hb => e1.trans ?_, fun hb => e1.trans ?_⟩ <;>
    rcases memWrite_cases (effAddr x rel s) size a { s with wst := s1 } with ⟨hn, e⟩ | ⟨hn, e⟩
  · exact e
  · omega
  · omega
  · exact e

end Sys2Proof.Machine
end

