-- ==== Sys2Proof/Laws/HostPort.lean ====
section
/-! SUPPORT. What each host move can do, said once: no load write after the first step, a step grant
is a step and nothing else, and only reset leaves the phase of steps (R84). -/

namespace Sys2Proof.Machine

/-- A step always answers a next state. -/
theorem step_answers (s : State) : ∃ t, step s = .next t := by
  by_cases hr : s.runState = .running
  · rcases step_running_cases hr with ⟨-, e⟩ | ⟨-, ⟨i, tail, -, e⟩ | ⟨-, e⟩⟩
    · exact ⟨_, e⟩
    · exact e ▸ exec_answers i _
    · exact ⟨_, e⟩
  · exact ⟨s, step_stopped hr⟩

@[simp] theorem hostMove_reset (x : Session) : hostMove .reset x = .next Session.reset := rfl

/-- The next byte of the image is taken. -/
theorem hostMove_load_next {a : BitVec 16} {image : List Byte} (h : a.toNat = image.length)
    (b : Byte) : hostMove (.load a b) (.loading image) = .next (.loading (image ++ [b])) := by
  simp only [hostMove, if_pos h]

/-- Any other load write before the first step is no move (U13). -/
theorem hostMove_load_other {a : BitVec 16} {image : List Byte} (h : a.toNat ≠ image.length)
    (b : Byte) : hostMove (.load a b) (.loading image) = .refused .loadNotNextByte := by
  simp only [hostMove, if_neg h]

@[simp] theorem hostMove_load_stepping (a : BitVec 16) (b : Byte) (s : State) :
    hostMove (.load a b) (.stepping s) = .refused .loadAfterFirstStep := rfl

theorem hostMove_grant {x : Session} {t : State} (h : step x.core = .next t) :
    hostMove .grant x = .next (.stepping t) := by
  simp only [hostMove, h]

/-- After the first step a move that is one either resets or is a step of the core (R84). -/
theorem hostMove_stepping_cases {move : HostMove} {s : State} {y : Session}
    (h : hostMove move (.stepping s) = .next y) :
    (move = .reset ∧ y = Session.reset) ∨
      (move = .grant ∧ ∃ t, step s = .next t ∧ y = .stepping t) := by
  cases move with
  | reset => exact .inl ⟨rfl, (Host.Outcome.next.inj h).symm⟩
  | load a b => exact nomatch h
  | grant =>
    obtain ⟨t, e⟩ := step_answers s
    rw [hostMove_grant (x := .stepping s) e] at h
    exact .inr ⟨rfl, t, e, (Host.Outcome.next.inj h).symm⟩

/-- The load writes of bytes that fit append them to the image, and the first step is still to come
(R212). -/
theorem hostMoves_loadMoves (bytes image : List Byte)
    (h : image.length + bytes.length ≤ Config.memBytes) :
    hostMoves (loadMoves image.length bytes) (.loading image) =
      .next (.loading (image ++ bytes)) := by
  induction bytes generalizing image with
  | nil => rw [List.append_nil]; rfl
  | cons b rest ih =>
    rw [List.length_cons, show Config.memBytes = 65536 from rfl] at h
    have ha : (BitVec.ofNat 16 image.length).toNat = image.length := by
      rw [BitVec.toNat_ofNat, Nat.mod_eq_of_lt (show image.length < 65536 by omega)]
    have hl : (image ++ [b]).length = image.length + 1 := by simp
    have := ih (image ++ [b]) (show _ ≤ 65536 by omega)
    rw [hl, List.append_assoc] at this
    rw [loadMoves, hostMoves, hostMove_load_next ha]
    exact this

/-- The launch of an image that fits is the launch state of R213. -/
theorem launch_of_le {image : List Byte} (h : image.length ≤ Config.memBytes) :
    launch image = .next { State.reset with mem := State.reset.mem.placeBytes 0 image } := by
  have e := hostMoves_loadMoves image [] (by simpa using h)
  rw [List.length_nil, List.nil_append] at e
  simp only [launch, if_neg (Nat.not_lt.mpr h), Session.reset, e, Session.core]

/-- A budget of steps is as many step grants (R81). -/
theorem hostMoves_grants (n : Nat) (s : State) :
    ∃ t, execBudget n s = .next t ∧
      hostMoves (List.replicate n .grant) (.stepping s) = .next (.stepping t) := by
  induction n generalizing s with
  | zero => exact ⟨s, rfl, rfl⟩
  | succ n ih =>
    obtain ⟨t, e⟩ := step_answers s
    obtain ⟨u, hu, hm⟩ := ih t
    refine ⟨u, ?_, ?_⟩
    · by_cases hr : s.runState = .running
      · simp only [execBudget, hr, e, hu]
      · have ht : t = s := (Host.Outcome.next.inj ((step_stopped hr).symm.trans e)).symm
        subst ht
        cases n with
        | zero => cases h : t.runState <;> simp_all [execBudget]
        | succ n => cases h : t.runState <;> simp_all [execBudget]
    · rw [List.replicate_succ, hostMoves, hostMove_grant (x := .stepping s) e]
      exact hm

end Sys2Proof.Machine
end

