-- ==== Sys2Proof/Laws/PerInstr.lean ====
section
/-! SUPPORT. The family `RoundTrip`: decoding the bytes of an instruction gives it back, whatever
bytes follow. One lemma per constructor of `Instr`. -/

namespace Sys2Proof.Laws.RoundTrip

open Sys2Proof

/-- Decoding the encoding of the instruction, with any bytes after it, gives the instruction and
leaves those bytes. -/
def Statement (i : Instr) : Prop := ∀ rest : List Byte, decode (encode i ++ rest) = .ok (i, rest)

/-- Decoding a byte built from an opcode and its fields finds that opcode and those fields. -/
theorem decode_instrByte (op : Op) (size : Option Width) (rel : Bool) (rest : List Byte) :
    decode (instrByte op size rel :: rest) = decodeOp op size rel rest := by
  have h : opOfBits (opField (instrByte op size rel)) = some op ∧
      widthOfBits (sizeField (instrByte op size rel)) = size ∧
      relField (instrByte op size rel) = rel := by
    revert op size rel
    intro op size rel
    rcases size with _ | (_ | _ | _) <;> cases rel <;> cases op <;> exact ⟨rfl, rfl, rfl⟩
  simp only [decode, h.1, h.2.1, h.2.2]

theorem litW (imm : BitVec 32) : Statement (.litW imm) := fun rest => by
  simp only [encode, List.cons_append, List.nil_append, decode_instrByte, decodeOp, decodeLit,
    joinWord_byteAt]

theorem litB (imm : BitVec 8) : Statement (.litB imm) := fun rest => by
  simp only [encode, List.cons_append, List.nil_append, decode_instrByte, decodeOp, decodeLit]

theorem litS (imm : BitVec 16) : Statement (.litS imm) := fun rest => by
  simp only [encode, List.cons_append, List.nil_append, decode_instrByte, decodeOp, decodeLit,
    joinShort_byteAt]

theorem litX : Statement .litX := fun rest => decode_instrByte .lit none false rest

theorem nop : Statement .nop := fun rest =>
  decode_instrByte .nop (some .word) false rest

theorem dup : Statement .dup := fun rest =>
  decode_instrByte .dup (some .word) false rest

theorem drop : Statement .drop := fun rest =>
  decode_instrByte .drop (some .word) false rest

theorem swap : Statement .swap := fun rest =>
  decode_instrByte .swap (some .word) false rest

theorem overOp : Statement .overOp := fun rest =>
  decode_instrByte .overOp (some .word) false rest

theorem rot : Statement .rot := fun rest =>
  decode_instrByte .rot (some .word) false rest

theorem nip : Statement .nip := fun rest =>
  decode_instrByte .nip (some .word) false rest

theorem call (rel : Bool) : Statement (.call rel) := fun rest =>
  decode_instrByte .call (some .word) rel rest

theorem ccall (rel : Bool) : Statement (.ccall rel) := fun rest =>
  decode_instrByte .ccall (some .word) rel rest

theorem ret : Statement .ret := fun rest =>
  decode_instrByte .ret (some .word) false rest

theorem cret : Statement .cret := fun rest =>
  decode_instrByte .cret (some .word) false rest

theorem jmp (rel : Bool) : Statement (.jmp rel) := fun rest =>
  decode_instrByte .jmp (some .word) rel rest

theorem cjmp (rel : Bool) : Statement (.cjmp rel) := fun rest =>
  decode_instrByte .cjmp (some .word) rel rest

theorem wtr : Statement .wtr := fun rest =>
  decode_instrByte .wtr (some .word) false rest

theorem rtw : Statement .rtw := fun rest =>
  decode_instrByte .rtw (some .word) false rest

theorem eq : Statement .eq := fun rest =>
  decode_instrByte .eq (some .word) false rest

theorem neq : Statement .neq := fun rest =>
  decode_instrByte .neq (some .word) false rest

theorem lt : Statement .lt := fun rest =>
  decode_instrByte .lt (some .word) false rest

theorem gt : Statement .gt := fun rest =>
  decode_instrByte .gt (some .word) false rest

theorem and : Statement .and := fun rest =>
  decode_instrByte .and (some .word) false rest

theorem or : Statement .or := fun rest =>
  decode_instrByte .or (some .word) false rest

theorem xor : Statement .xor := fun rest =>
  decode_instrByte .xor (some .word) false rest

theorem shift : Statement .shift := fun rest =>
  decode_instrByte .shift (some .word) false rest

theorem add : Statement .add := fun rest =>
  decode_instrByte .add (some .word) false rest

theorem sub : Statement .sub := fun rest =>
  decode_instrByte .sub (some .word) false rest

theorem mul : Statement .mul := fun rest =>
  decode_instrByte .mul (some .word) false rest

theorem divmod : Statement .divmod := fun rest =>
  decode_instrByte .divmod (some .word) false rest

theorem fetchW (rel : Bool) : Statement (.fetchW rel) := fun rest =>
  decode_instrByte .fetch (some .word) rel rest

theorem fetchB (rel : Bool) : Statement (.fetchB rel) := fun rest =>
  decode_instrByte .fetch (some .byte) rel rest

theorem fetchS (rel : Bool) : Statement (.fetchS rel) := fun rest =>
  decode_instrByte .fetch (some .short) rel rest

theorem fetchX (rel : Bool) : Statement (.fetchX rel) := fun rest =>
  decode_instrByte .fetch none rel rest

theorem storeW (rel : Bool) : Statement (.storeW rel) := fun rest =>
  decode_instrByte .store (some .word) rel rest

theorem storeB (rel : Bool) : Statement (.storeB rel) := fun rest =>
  decode_instrByte .store (some .byte) rel rest

theorem storeS (rel : Bool) : Statement (.storeS rel) := fun rest =>
  decode_instrByte .store (some .short) rel rest

theorem storeX (rel : Bool) : Statement (.storeX rel) := fun rest =>
  decode_instrByte .store none rel rest

theorem sextW : Statement .sextW := fun rest =>
  decode_instrByte .sext (some .word) false rest

theorem sextB : Statement .sextB := fun rest =>
  decode_instrByte .sext (some .byte) false rest

theorem sextS : Statement .sextS := fun rest =>
  decode_instrByte .sext (some .short) false rest

theorem sextX : Statement .sextX := fun rest =>
  decode_instrByte .sext none false rest

theorem trap : Statement .trap := fun rest =>
  decode_instrByte .trap (some .word) false rest

end Sys2Proof.Laws.RoundTrip
end

