-- ==== Sys2Proof/Laws/View.lean ====
section
/-! SUPPORT. States that hold the same Words on their stacks are treated alike by every primitive
(R16): the values, the causes and the resulting Words agree. -/

namespace Sys2Proof.Machine

/-- Two computations answer the same value, or raise the same cause, in states with the same view. -/
def Res.Alike {α : Type} : Res α → Res α → Prop
  | .ok v s, .ok w t => v = w ∧ s.sameView t
  | .raised c s, .raised d t => c = d ∧ s.sameView t
  | _, _ => False

theorem Res.alike_andThen {α β : Type} {x y : Res α} {k l : α → State → Res β}
    (h : Res.Alike x y) (hk : ∀ v s t, s.sameView t → Res.Alike (k v s) (l v t)) :
    Res.Alike (x.andThen k) (y.andThen l) := by
  cases x <;> cases y <;> simp only [Res.Alike] at h
  · obtain ⟨rfl, h⟩ := h
    exact hk _ _ _ h
  · exact h

theorem raise_sameView (c : Cause) {s t : State} (h : s.sameView t) :
    (raise c s).sameView (raise c t) :=
  ⟨h.1, h.2.1, h.2.2.1, h.2.2.2.1, rfl, rfl, h.2.2.2.2.2.2⟩

theorem advance_sameView (n : Nat) {s t : State} (h : s.sameView t) :
    (advance n s).sameView (advance n t) :=
  ⟨h.1, h.2.1, h.2.2.1, by simp only [advance_pc, h.2.2.2.1], h.2.2.2.2⟩

theorem wPop_alike {s t : State} (h : s.sameView t) : Res.Alike (wPop s) (wPop t) := by
  obtain ⟨h0, h1, h2⟩ := h
  rcases wPop_cases s with ⟨hn, e⟩ | ⟨v, st, e, hc⟩
  · rw [e, wPop_of_nil (h1 ▸ hn)]
    exact ⟨rfl, h0, h1, h2⟩
  · obtain ⟨st', e', hw⟩ := wPop_of_cons (s := t) (h1 ▸ hc)
    rw [e, e']
    exact ⟨rfl, h0, hw.symm, h2⟩

theorem rPop_alike {s t : State} (h : s.sameView t) : Res.Alike (rPop s) (rPop t) := by
  obtain ⟨h0, h1, h2, h3⟩ := h
  rcases rPop_cases s with ⟨hn, e⟩ | ⟨v, st, e, hc⟩
  · rw [e, rPop_of_nil (h2 ▸ hn)]
    exact ⟨rfl, h0, h1, h2, h3⟩
  · obtain ⟨st', e', hw⟩ := rPop_of_cons (s := t) (h2 ▸ hc)
    rw [e, e']
    exact ⟨rfl, h0, h1, hw.symm, h3⟩

theorem wPush_alike (v : Word) {s t : State} (h : s.sameView t) :
    Res.Alike (wPush v s) (wPush v t) := by
  obtain ⟨h0, h1, h2⟩ := h
  by_cases hl : s.wst.words.length < Config.stackWords
  · obtain ⟨a, e, w⟩ := wPush_of_room v hl
    obtain ⟨a', e', w'⟩ := wPush_of_room (s := t) v (h1 ▸ hl)
    rw [e, e']
    exact ⟨rfl, h0, show a.words = a'.words by rw [w, w', h1], h2⟩
  · rw [wPush_of_full v hl, wPush_of_full (s := t) v (h1 ▸ hl)]
    exact ⟨rfl, h0, h1, h2⟩

theorem rPush_alike (v : Word) {s t : State} (h : s.sameView t) :
    Res.Alike (rPush v s) (rPush v t) := by
  obtain ⟨h0, h1, h2, h3⟩ := h
  by_cases hl : s.rst.words.length < Config.stackWords
  · obtain ⟨a, e, w⟩ := rPush_of_room v hl
    obtain ⟨a', e', w'⟩ := rPush_of_room (s := t) v (h2 ▸ hl)
    rw [e, e']
    exact ⟨rfl, h0, h1, show a.words = a'.words by rw [w, w', h2], h3⟩
  · rw [rPush_of_full v hl, rPush_of_full (s := t) v (h2 ▸ hl)]
    exact ⟨rfl, h0, h1, h2, h3⟩

theorem memRead_alike (a : Word) (w : Width) {s t : State} (h : s.sameView t) :
    Res.Alike (memRead a w s) (memRead a w t) := by
  unfold memRead
  split
  · exact ⟨rfl, h⟩
  · exact ⟨by rw [h.1], h⟩

theorem memWrite_alike (a : Word) (w : Width) (v : Word) {s t : State} (h : s.sameView t) :
    Res.Alike (memWrite a w v s) (memWrite a w v t) := by
  unfold memWrite
  split
  · exact ⟨rfl, h⟩
  · exact ⟨rfl, by rw [h.1], h.2⟩

theorem setPc_alike (v : Word) {s t : State} (h : s.sameView t) :
    Res.Alike (setPc v s) (setPc v t) :=
  ⟨rfl, h.1, h.2.1, h.2.2.1, rfl, h.2.2.2.2⟩

theorem halt_alike (v : Word) {s t : State} (h : s.sameView t) :
    Res.Alike (halt v s) (halt v t) :=
  ⟨rfl, h.1, h.2.1, h.2.2.1, h.2.2.2.1, rfl, h.2.2.2.2.2.1, rfl, h.2.2.2.2.2.2.2⟩

theorem putc_alike (v : Word) {s t : State} (h : s.sameView t) :
    Res.Alike (putc v s) (putc v t) :=
  ⟨rfl, h.1, h.2.1, h.2.2.1, h.2.2.2.1, h.2.2.2.2.1, h.2.2.2.2.2.1, h.2.2.2.2.2.2.1,
    congrArg (· ++ [v]) h.2.2.2.2.2.2.2⟩

theorem target_sameView (x : Word) (rel : Bool) {s t : State} (h : s.sameView t) :
    target x rel s = target x rel t := by
  simp only [target, h.2.2.2.1]

theorem effAddr_sameView (x : Word) (rel : Bool) {s t : State} (h : s.sameView t) :
    effAddr x rel s = effAddr x rel t := by
  simp only [effAddr, h.2.2.2.1]

end Sys2Proof.Machine
end

