-- ==== Sys2Proof/Tests/Slice0.lean ====
section
/-! SUPPORT. Tests: ill-formed terms are refused, instruction bytes written out bit by bit from
spec/30_encoding.md decode to what they stand for, single steps give what the vectors of
spec/95_test_vectors.md (named `V-…`) say, and every hypothesis of a statement is met by a state.
Stacks are listed top first. No expected value here comes from the model. -/

namespace Sys2Proof.Tests

open Sys2Proof Sys2Proof.Machine

/-! ## Small states -/

/-- A stack holding these Words, the top first. -/
def stackOf : List Word → Stack
  | [] => Stack.empty
  | v :: rest => ((stackOf rest).push v).getD Stack.empty

/-- A stack with all 256 slots taken by one Word. -/
def fullOf (v : Word) : Stack := ⟨Vector.replicate 256 v, 256⟩

/-- The reset state with these Words on the stacks and this `pc`. -/
def core (w r : List Word) (pc : Word) : State :=
  { State.reset with wst := stackOf w, rst := stackOf r, pc := pc }

/-- The same with a full working stack of 7s. -/
def coreFullW (r : List Word) (pc : Word) : State := { core [] r pc with wst := fullOf 7 }

/-- The same with a full return stack of 7s. -/
def coreFullR (w : List Word) (pc : Word) : State := { core w [] pc with rst := fullOf 7 }

/-- With bytes in memory from an address on. -/
def withBytes (s : State) (a : Nat) (bs : List Byte) : State :=
  { s with mem := s.mem.placeBytes a bs }

/-- The vectors' memory: `mem[0x100..0x103] = 78 56 34 12`. -/
def coreMem (w : List Word) (pc : Word) : State :=
  withBytes (core w [] pc) 0x100 [0x78, 0x56, 0x34, 0x12]

/-- The answer is a next state with this property. -/
def goes (o : Answer) (p : State → Bool) : Bool :=
  match o with
  | .next t => p t
  | _ => false

/-- Still running, with these stacks and this `pc`. -/
def runs (o : Answer) (w r : List Word) (pc : Word) : Bool :=
  goes o fun t => t.runState = .running ∧ t.wst.words = w ∧ t.rst.words = r ∧ t.pc = pc

/-- Faulted with this cause code, with these stacks and this `pc`. -/
def stops (o : Answer) (code : BitVec 3) (w r : List Word) (pc : Word) : Bool :=
  goes o fun t => t.runState = .faulted ∧ t.faultCause = code ∧ t.wst.words = w ∧
    t.rst.words = r ∧ t.pc = pc

/-- The bytes at four addresses from `a` on. -/
def four (t : State) (a : Nat) : List Byte :=
  [t.mem.read a, t.mem.read (a + 1), t.mem.read (a + 2), t.mem.read (a + 3)]

/-! ## Well-formedness: the five illegal forms of R60 are refused -/

theorem test_illFormed_litX : Instr.litX.wellFormed = false := by decide
theorem test_illFormed_fetchX : (Instr.fetchX true).wellFormed = false := by decide
theorem test_illFormed_storeX : (Instr.storeX false).wellFormed = false := by decide
theorem test_illFormed_sextW : Instr.sextW.wellFormed = false := by decide
theorem test_illFormed_sextX : Instr.sextX.wellFormed = false := by decide
theorem test_wellFormed_others : (Instr.litB 255).wellFormed = true ∧
    (Instr.fetchS true).wellFormed = true ∧ Instr.sextB.wellFormed = true := by decide

/-! ## Decoding, bit by bit: relative flag, two size bits, five opcode bits (R50, R54) -/

theorem test_decode_nop_lit :
    decode [0b0_00_00000] = .ok (.nop, []) ∧
    decode [0b0_00_00001, 0x78, 0x56, 0x34, 0x12] = .ok (.litW 0x12345678, []) ∧
    decode [0b0_01_00001, 0xFF] = .ok (.litB 0xFF, []) ∧
    decode [0b0_10_00001, 0x00, 0x80] = .ok (.litS 0x8000, []) ∧
    decode [0b0_11_00001] = .ok (.litX, []) := by decide

theorem test_decode_stack :
    decode [0b0_00_00010] = .ok (.dup, []) ∧
    decode [0b0_00_00011] = .ok (.drop, []) ∧
    decode [0b0_00_00100] = .ok (.swap, []) ∧
    decode [0b0_00_00101] = .ok (.overOp, []) ∧
    decode [0b0_00_00110] = .ok (.rot, []) ∧
    decode [0b0_00_00111] = .ok (.nip, []) := by decide

theorem test_decode_control :
    decode [0b0_00_01000] = .ok (.call false, []) ∧
    decode [0b1_00_01000] = .ok (.call true, []) ∧
    decode [0b0_00_01001] = .ok (.ccall false, []) ∧
    decode [0b1_00_01001] = .ok (.ccall true, []) ∧
    decode [0b0_00_01100] = .ok (.jmp false, []) ∧
    decode [0b1_00_01100] = .ok (.jmp true, []) ∧
    decode [0b0_00_01101] = .ok (.cjmp false, []) ∧
    decode [0b1_00_01101] = .ok (.cjmp true, []) ∧
    decode [0b0_00_01010] = .ok (.ret, []) ∧
    decode [0b0_00_01011] = .ok (.cret, []) := by decide

theorem test_decode_transfer_compare :
    decode [0b0_00_01110] = .ok (.wtr, []) ∧
    decode [0b0_00_01111] = .ok (.rtw, []) ∧
    decode [0b0_00_10000] = .ok (.eq, []) ∧
    decode [0b0_00_10001] = .ok (.neq, []) ∧
    decode [0b0_00_10010] = .ok (.lt, []) ∧
    decode [0b0_00_10011] = .ok (.gt, []) := by decide

theorem test_decode_logic_arithmetic :
    decode [0b0_00_10100] = .ok (.and, []) ∧
    decode [0b0_00_10101] = .ok (.or, []) ∧
    decode [0b0_00_10110] = .ok (.xor, []) ∧
    decode [0b0_00_10111] = .ok (.shift, []) ∧
    decode [0b0_00_11000] = .ok (.add, []) ∧
    decode [0b0_00_11001] = .ok (.sub, []) ∧
    decode [0b0_00_11010] = .ok (.mul, []) ∧
    decode [0b0_00_11011] = .ok (.divmod, []) := by decide

theorem test_decode_memory :
    decode [0b0_00_11100] = .ok (.fetchW false, []) ∧
    decode [0b0_01_11100] = .ok (.fetchB false, []) ∧
    decode [0b1_10_11100] = .ok (.fetchS true, []) ∧
    decode [0b0_11_11100] = .ok (.fetchX false, []) ∧
    decode [0b1_00_11101] = .ok (.storeW true, []) ∧
    decode [0b0_01_11101] = .ok (.storeB false, []) ∧
    decode [0b0_10_11101] = .ok (.storeS false, []) ∧
    decode [0b1_11_11101] = .ok (.storeX true, []) := by decide

theorem test_decode_sext_trap :
    decode [0b0_00_11110] = .ok (.sextW, []) ∧
    decode [0b0_01_11110] = .ok (.sextB, []) ∧
    decode [0b0_10_11110] = .ok (.sextS, []) ∧
    decode [0b0_11_11110] = .ok (.sextX, []) ∧
    decode [0b0_00_11111] = .ok (.trap, []) := by decide

/-- V-dec-12, V-dec-13, V-dec-14, V-cf-17, V-lit-6: fields an opcode does not use are ignored. -/
theorem test_decode_unusedFields :
    decode [0xF8] = .ok (.add, []) ∧
    decode [0x60] = .ok (.nop, []) ∧
    decode [0xFF] = .ok (.trap, []) ∧
    decode [0x8A] = .ok (.ret, []) ∧
    decode [0xA1, 0x35] = .ok (.litB 0x35, []) := by decide

theorem test_decode_short : decode [] = .error .noInstructionByte ∧
    decode [0x21] = .error .immediateCutShort ∧ decode [0x41, 1] = .error .immediateCutShort ∧
    decode [0x01, 1, 2, 3] = .error .immediateCutShort := by decide

theorem test_encode : encode (.litW 0xFFFFFFEC) = [0x01, 0xEC, 0xFF, 0xFF, 0xFF] ∧
    encode (.cjmp true) = [0x8D] ∧ encode (.litS 0x100) = [0x41, 0x00, 0x01] ∧
    encode .sextX = [0x7E] := by decide

theorem test_decodeTableWord : decodeTableWord 40 0x1234567801 = some (.litW 0x12345678) ∧
    decodeTableWord 8 0x1F = some .trap ∧ decodeTableWord 8 0x41 = some (.litS 0) := by decide


/-! ## Steps: stack instructions (V-st) -/

/-- V-st-21 -/
theorem test_nop : runs (exec .nop (core [4] [8] 1)) [4] [8] 1 := by decide
/-- V-st-1 -/
theorem test_dup : runs (exec .dup (core [5] [] 1)) [5, 5] [] 1 := by decide
/-- V-st-4 -/
theorem test_drop : runs (exec .drop (core [2, 1] [] 1)) [1] [] 1 := by decide
/-- V-st-5 -/
theorem test_drop_empty : stops (exec .drop (core [] [] 1)) 1 [] [] 1 := by decide
/-- V-st-6 -/
theorem test_swap : runs (exec .swap (core [2, 1] [] 1)) [1, 2] [] 1 := by decide
/-- V-st-7 -/
theorem test_swap_short : stops (exec .swap (core [9] [] 1)) 1 [] [] 1 := by decide
/-- V-st-8 -/
theorem test_over : runs (exec .overOp (core [2, 1] [] 1)) [1, 2, 1] [] 1 := by decide
/-- V-st-11 -/
theorem test_rot : runs (exec .rot (core [3, 2, 1] [] 1)) [1, 3, 2] [] 1 := by decide
/-- V-st-12 -/
theorem test_rot_short : stops (exec .rot (core [2, 1] [] 1)) 1 [] [] 1 := by decide
/-- V-st-14 -/
theorem test_nip : runs (exec .nip (core [2, 1] [] 1)) [2] [] 1 := by decide
/-- R100, one pop stands -/
theorem test_nip_short : stops (exec .nip (core [9] [] 1)) 1 [] [] 1 := by decide
/-- V-st-15 -/
theorem test_wtr : runs (exec .wtr (core [9, 1] [] 1)) [1] [9] 1 := by decide
/-- V-st-18 -/
theorem test_rtw : runs (exec .rtw (core [] [3] 1)) [3] [] 1 := by decide

/-! ## Steps: control flow (V-cf) -/

/-- V-cf-2 -/
theorem test_call_rel : runs (exec (.call true) (core [6] [] 3)) [] [3] 9 := by decide
/-- V-cf-14 -/
theorem test_call_pushStands : stops (exec (.call false) (core [] [] 11)) 1 [] [11] 11 := by decide
/-- V-cf-8 -/
theorem test_ccall : runs (exec (.ccall false) (core [1, 40] [] 11)) [] [11] 40 := by decide
/-- V-cf-15 -/
theorem test_ret : runs (exec .ret (core [] [3] 9)) [] [] 3 := by decide
/-- V-cf-16 -/
theorem test_ret_empty : stops (exec .ret (core [] [] 9)) 3 [] [] 9 := by decide
/-- V-cf-18 -/
theorem test_cret : runs (exec .cret (core [1] [7] 17)) [] [] 7 := by decide
/-- V-cf-20 -/
theorem test_cret_notTaken : runs (exec .cret (core [0] [] 17)) [] [] 17 := by decide
/-- V-cf-6 -/
theorem test_jmp_rel : runs (exec (.jmp true) (core [0xFFFFFFFA] [] 6)) [] [] 0 := by decide
/-- V-cf-7 -/
theorem test_jmp : runs (exec (.jmp false) (core [0x10000] [] 6)) [] [] 65536 := by decide
/-- V-cf-22 -/
theorem test_cjmp_rel : runs (exec (.cjmp true) (core [2, 0xFFFFFFEC] [] 22)) [] [] 2 := by decide
/-- V-cf-24 -/
theorem test_cjmp_highBit :
    runs (exec (.cjmp false) (core [0x80000000, 100] [] 22)) [] [] 100 := by decide

/-! ## Steps: literals (V-lit) -/

/-- V-lit-4 -/
theorem test_litB : runs (step (withBytes (core [] [] 0) 0 [0x21, 0xFF])) [0xFF] [] 2 := by decide
/-- V-lit-9 -/
theorem test_litB_cutShort :
    stops (step (withBytes (core [] [] 65535) 65535 [0x21])) 5 [] [] 65536 := by decide
/-- V-lit-5 -/
theorem test_litS :
    runs (step (withBytes (core [] [] 0) 0 [0x41, 0x00, 0x80])) [0x8000] [] 3 := by decide
/-- V-lit-11 -/
theorem test_litW :
    runs (step (withBytes (core [] [] 65531) 65531 [0x01, 0xEF, 0xBE, 0xAD, 0xDE]))
      [0xDEADBEEF] [] 65536 := by
  decide
/-- V-lit-10 -/
theorem test_litW_cutShort :
    stops (step (withBytes (core [] [] 65532) 65532 [0x01, 1, 2, 3])) 5 [] [] 65533 := by decide
/-- V-lit-7 -/
theorem test_litX : stops (step (withBytes (core [] [] 0) 0 [0x61])) 6 [] [] 1 := by decide

/-! ## Steps: compare, logic, shift, arithmetic, sign extension (V-alu) -/

/-- V-alu-1 -/
theorem test_eq : runs (exec .eq (core [7, 7] [] 1)) [1] [] 1 := by decide
/-- V-alu-2 -/
theorem test_eq_not : runs (exec .eq (core [8, 7] [] 1)) [0] [] 1 := by decide
/-- V-alu-3 -/
theorem test_neq : runs (exec .neq (core [8, 7] [] 1)) [1] [] 1 := by decide
/-- V-alu-4 -/
theorem test_neq_not : runs (exec .neq (core [7, 7] [] 1)) [0] [] 1 := by decide
/-- V-alu-5 -/
theorem test_lt : runs (exec .lt (core [3, 2] [] 1)) [1] [] 1 := by decide
/-- V-alu-8 -/
theorem test_lt_unsigned : runs (exec .lt (core [1, 0xFFFFFFFF] [] 1)) [0] [] 1 := by decide
/-- V-alu-10 -/
theorem test_gt : runs (exec .gt (core [2, 3] [] 1)) [1] [] 1 := by decide
/-- V-alu-12 -/
theorem test_gt_unsigned :
    runs (exec .gt (core [0x7FFFFFFF, 0x80000000] [] 1)) [1] [] 1 := by decide
/-- V-alu-14 -/
theorem test_and :
    runs (exec .and (core [0x0FF00FF0, 0xFF00FF00] [] 1)) [0x0F000F00] [] 1 := by decide
/-- V-alu-15 -/
theorem test_or :
    runs (exec .or (core [0x0FF00FF0, 0xFF00FF00] [] 1)) [0xFFF0FFF0] [] 1 := by decide
/-- V-alu-16 -/
theorem test_xor :
    runs (exec .xor (core [0x0FF00FF0, 0xFF00FF00] [] 1)) [0xF0F0F0F0] [] 1 := by decide
/-- V-alu-17 -/
theorem test_xor_complement :
    runs (exec .xor (core [0xFFFFFFFF, 0x12345678] [] 1)) [0xEDCBA987] [] 1 := by decide
/-- V-alu-19 -/
theorem test_shift_left : runs (exec .shift (core [1, 0x80000001] [] 1)) [2] [] 1 := by decide
/-- V-alu-26 -/
theorem test_shift_right :
    runs (exec .shift (core [0xFFFFFFE1, 0x80000000] [] 1)) [1] [] 1 := by decide
/-- V-alu-29 -/
theorem test_add : runs (exec .add (core [1, 0xFFFFFFFF] [] 1)) [0] [] 1 := by decide
/-- V-alu-59 -/
theorem test_add_short : stops (exec .add (core [9] [] 1)) 1 [] [] 1 := by decide
/-- V-alu-31 -/
theorem test_sub : runs (exec .sub (core [3, 5] [] 1)) [2] [] 1 := by decide
/-- V-alu-32 -/
theorem test_sub_wraps : runs (exec .sub (core [5, 3] [] 1)) [0xFFFFFFFE] [] 1 := by decide
/-- V-alu-34 -/
theorem test_mul : runs (exec .mul (core [7, 6] [] 1)) [42] [] 1 := by decide
/-- V-alu-37 -/
theorem test_mul_low :
    runs (exec .mul (core [0x9ABCDEF0, 0x12345678] [] 1)) [0x242D2080] [] 1 := by decide
/-- V-alu-38 -/
theorem test_divmod : runs (exec .divmod (core [2, 7] [] 1)) [3, 1] [] 1 := by decide
/-- V-alu-44 -/
theorem test_divmod_zero : stops (exec .divmod (core [0, 7] [] 1)) 0 [7] [] 1 := by decide
/-- V-alu-51 -/
theorem test_sextB : runs (exec .sextB (core [0x12345680] [] 1)) [0xFFFFFF80] [] 1 := by decide
/-- V-alu-48 -/
theorem test_sextB_positive : runs (exec .sextB (core [0x7F] [] 1)) [0x7F] [] 1 := by decide
/-- V-alu-55 -/
theorem test_sextS : runs (exec .sextS (core [0x18000] [] 1)) [0xFFFF8000] [] 1 := by decide
/-- V-alu-53 -/
theorem test_sextS_positive : runs (exec .sextS (core [0x7FFF] [] 1)) [0x7FFF] [] 1 := by decide
/-- V-alu-56 -/
theorem test_sextW : stops (exec .sextW (core [5] [] 1)) 6 [] [] 1 := by decide
/-- V-alu-57 -/
theorem test_sextW_empty : stops (exec .sextW (core [] [] 1)) 1 [] [] 1 := by decide
/-- V-alu-58 -/
theorem test_sextX : stops (exec .sextX (core [5] [] 1)) 6 [] [] 1 := by decide

/-! ## Steps on full stacks, in one theorem: the kernel evaluates their 256 Words -/

/-- V-st-3, V-st-9, V-st-17, V-st-20, V-cf-10, V-lit-12 with `lit.s` -/
theorem test_fullStacks :
    stops (exec .dup (coreFullW [] 1)) 2 (List.replicate 256 7) [] 1 ∧
    stops (exec .overOp (coreFullW [] 1)) 2 (List.replicate 256 7) [] 1 ∧
    stops (exec .wtr (coreFullR [9] 1)) 4 [] (List.replicate 256 7) 1 ∧
    stops (exec .rtw (coreFullW [3] 1)) 2 (List.replicate 256 7) [] 1 ∧
    runs (exec (.ccall false) (coreFullR [0, 40] 11)) [] (List.replicate 256 7) 11 ∧
    stops (exec (.litS 1) (coreFullW [] 1)) 2 (List.replicate 256 7) [] 1 := by decide +kernel

/-! ## Steps: memory access (V-mem) -/

/-- V-mem-1 -/
theorem test_fetchW : runs (exec (.fetchW false) (coreMem [0x100] 1)) [0x12345678] [] 1 := by decide
/-- V-mem-12 -/
theorem test_fetchW_bound : stops (exec (.fetchW false) (coreMem [65533] 1)) 5 [] [] 1 := by decide
/-- V-mem-4 -/
theorem test_fetchS_misaligned :
    runs (exec (.fetchS false) (coreMem [0x101] 1)) [0x3456] [] 1 := by decide
/-- V-mem-13, on zero memory -/
theorem test_fetchS_last : runs (exec (.fetchS false) (coreMem [65534] 1)) [0] [] 1 := by decide
/-- V-mem-6 -/
theorem test_fetchB_rel :
    runs (exec (.fetchB true) (coreMem [0x0F] 0xF1)) [0x78] [] 0xF1 := by decide
/-- V-mem-17 -/
theorem test_fetchB_bound :
    stops (exec (.fetchB false) (coreMem [0xFFFFFFFF] 1)) 5 [] [] 1 := by decide
/-- V-mem-22 -/
theorem test_fetchX : stops (exec (.fetchX false) (coreMem [0x100] 1)) 6 [] [] 1 := by decide
/-- V-mem-24 -/
theorem test_fetchX_empty : stops (exec (.fetchX false) (coreMem [] 1)) 1 [] [] 1 := by decide
/-- V-mem-10 -/
theorem test_storeW :
    goes (exec (.storeW false) (core [0x201, 0xAABBCCDD] [] 1)) (fun t =>
      four t 0x201 = [0xDD, 0xCC, 0xBB, 0xAA] ∧ t.wst.words = []) := by decide
/-- V-mem-20 -/
theorem test_storeW_bound :
    goes (exec (.storeW false) (core [65533, 1] [] 1)) (fun t =>
      t.mem = [] ∧ t.faultCause = 5 ∧ t.wst.words = []) := by decide
/-- V-mem-8 -/
theorem test_storeS :
    goes (exec (.storeS false) (core [0x200, 0xAABBCCDD] [] 1)) (fun t =>
      four t 0x200 = [0xDD, 0xCC, 0, 0] ∧ t.wst.words = []) := by decide
/-- V-mem-9 -/
theorem test_storeB :
    goes (exec (.storeB false) (core [0x200, 0xAABBCCDD] [] 1)) (fun t =>
      four t 0x200 = [0xDD, 0, 0, 0] ∧ t.wst.words = []) := by decide
/-- V-mem-23 -/
theorem test_storeX :
    goes (exec (.storeX false) (core [0x100, 1] [] 1)) (fun t =>
      t.mem = [] ∧ t.faultCause = 6 ∧ t.wst.words = []) := by decide
/-- V-mem-21 with `store.x` -/
theorem test_storeX_short :
    goes (exec (.storeX false) (core [0x100] [] 1)) (fun t =>
      t.mem = [] ∧ t.faultCause = 1 ∧ t.wst.words = []) := by decide

/-! ## Steps: trap (V-tr) -/

/-- V-tr-2 -/
theorem test_trap_putc :
    goes (exec .trap (core [1, 0x1F600] [] 1)) (fun t =>
      t.out = [0x1F600] ∧ t.runState = .running ∧ t.wst.words = []) := by decide
/-- V-tr-3 -/
theorem test_trap_halt :
    goes (exec .trap (core [0, 7] [] 1)) (fun t =>
      t.exitStatus = 7 ∧ t.runState = .halted ∧ t.wst.words = []) := by decide

/-! ## Steps: fetch, run states, host moves (V-mem-25, V-rs) -/

/-- V-mem-25 -/
theorem test_fetch_pastEnd : stops (step (core [4] [] 65536)) 5 [4] [] 65536 := by decide
/-- V-rs-2, its first step -/
theorem test_step_emptyMemory : runs (step State.reset) [] [] 1 := by decide
/-- V-rs-3 -/
theorem test_step_halted :
    step { State.reset with runState := .halted } =
    .next { State.reset with runState := .halted } := by
  rfl
/-- V-rs-4 -/
theorem test_step_faulted :
    step { State.reset with runState := .faulted, faultCause := 7 } =
    .next { State.reset with runState := .faulted, faultCause := 7 } := by
  rfl
/-- V-lit-3 through `withFetchWord` -/
theorem test_withFetchWord :
    runs (step (State.reset.withFetchWord 40 0x1234567801)) [0x12345678] [] 5 := by decide
/-- R212 -/
theorem test_launch :
    goes (launch [0x21, 0x35, 0x18]) (fun t => t.mem.bytesFrom 0 4 = [0x21, 0x35, 0x18, 0]) := by
  decide
/-- R81, R23: two steps over zero bytes -/
theorem test_execBudget : goes (execBudget 2 State.reset) (fun t => t.pc = 2) := by decide
/-- R84, R212 -/
theorem test_load_nextByte : hostMove (.load 1 7) (.loading [9]) = .next (.loading [9, 7]) := by rfl
/-- R213, U13: no reload, no gap -/
theorem test_load_noReload :
    hostMove (.load 0 7) (.loading [9]) = .refused .loadNotNextByte ∧
    hostMove (.load 5 7) Session.reset = .refused .loadNotNextByte := by
  exact ⟨rfl, rfl⟩
/-- R84, U13: no load write after the first step, nor on a stopped core -/
theorem test_load_afterFirstStep :
    hostMove (.load 5 7) (.stepping { State.reset with runState := .halted }) =
    .refused .loadAfterFirstStep := by
  rfl
/-- the canonical form of the memory -/
theorem test_memory_canonical :
    Memory.write (Memory.write [] 5 1) 5 0 = [] ∧
    Memory.write (Memory.write [] 5 1) 3 2 = [(3, 2), (5, 1)] ∧ ¬ Memory.wf [(5, 0)] ∧
    ¬ Memory.wf [(5, 1), (5, 1)] ∧ ¬ Memory.wf [(65536, 1)] := by
  decide

/-! ## Witnesses: states and operands that meet the hypotheses of every statement that has any -/

/-- A stack of 255 Words, with room for exactly one more. -/
def roomOf (v : Word) : Stack := ⟨Vector.replicate 256 v, 255⟩

/-- A working stack with room for exactly one more Word. -/
def coreRoomW (w : List Word) : State := { core w [] 1 with wst := roomOf 7 }

/-- A return stack with room for exactly one more Word. -/
def coreRoomR (w : List Word) : State := { core w [] 1 with rst := roomOf 7 }

/-- A state that differs from `core [5] [] 1` in a slot above the pointer only. -/
def coreStale : State :=
  { core [5] [] 1 with wst := ⟨(stackOf [5]).slots.set 1 3, 1⟩ }

theorem fullOf_words (v : Word) : (fullOf v).words = v :: v :: v :: List.replicate 253 v := by
  show ((Vector.replicate 256 v).toList.take 256).reverse = _
  rw [Vector.toList_replicate, List.take_replicate, List.reverse_replicate]
  rfl

theorem fullOf_length (v : Word) : (fullOf v).words.length = 256 := (Stack.words_length _).trans rfl

theorem roomOf_words (v : Word) : (roomOf v).words = v :: v :: List.replicate 253 v := by
  show ((Vector.replicate 256 v).toList.take 255).reverse = _
  rw [Vector.toList_replicate, List.take_replicate, List.reverse_replicate]
  rfl

theorem roomOf_length (v : Word) : (roomOf v).words.length < 256 := by
  rw [Stack.words_length]
  exact (by decide : 255 < 256)

theorem test_witness_ResetZeroesState :
    (List.replicate 65536 (0 : Byte)).length ≤ 65536 ∧
    ([] : List Byte).length ≤ 0 := by
  rw [List.length_replicate]; decide

theorem test_witness_LoadPlacesImage :
    (List.replicate 65536 (1 : Byte)).length ≤ 65536 ∧
    ([] : List Byte).length ≤ 65536 ∧
    0 < ([1] : List Byte).length := by
  rw [List.length_replicate]; decide

theorem test_witness_PushWritesSlotAtPointer :
    (coreFullW [] 1).wst.ptr.val = 256 ∧
    (coreRoomW []).wst.ptr.val = 255 ∧
    State.reset.wst.ptr.val < 256 ∧
    (coreFullR [] 1).rst.ptr.val = 256 ∧
    (coreRoomR []).rst.ptr.val = 255 :=
  ⟨by decide, by decide, by decide, by decide, by decide⟩

theorem test_witness_PopReadsSlotBelowPointer :
    State.reset.wst.ptr.val = 0 ∧
    0 < (core [5] [] 1).wst.ptr.val ∧
    0 < (coreFullW [] 1).wst.ptr.val ∧
    State.reset.rst.ptr.val = 0 ∧
    0 < (core [] [5] 1).rst.ptr.val :=
  ⟨by decide, by decide, by decide, by decide, by decide⟩

theorem test_witness_StacksAreLastInFirstOut :
    State.reset.wst.words.length + (List.replicate 256 (3 : Word)).length ≤ 256 ∧
    State.reset.rst.words.length + (List.replicate 256 (3 : Word)).length ≤ 256 ∧
    (core [5] [6] 1).wst.words.length + [(1 : Word), 2].length ≤ 256 ∧
    (List.replicate 256 (3 : Word)).length = 256 ∧
    State.reset.wst.words = [] ∧
    State.reset.rst.words = [] := by
  simp only [List.length_replicate]; decide

theorem test_witness_ReadIsCheckedLittleEndian :
    65536 < (65533 : Word).toNat + Width.word.bytes ∧
    (65532 : Word).toNat + Width.word.bytes ≤ 65536 ∧
    65536 < (65536 : Word).toNat + Width.byte.bytes ∧
    (65534 : Word).toNat + Width.short.bytes ≤ 65536 := by decide

theorem test_witness_WriteIsCheckedLittleEndian :
    65536 < (0xFFFFFFFE : Word).toNat + Width.word.bytes ∧
    (65535 : Word).toNat + Width.byte.bytes ≤ 65536 ∧
    65536 < (65535 : Word).toNat + Width.short.bytes := by decide

theorem test_witness_NarrowReadsSeeBytesOfWord :
    (65532 : Word).toNat + 4 ≤ 65536 ∧
    3 < 4 ∧
    2 < 3 := by decide

theorem test_witness_FetchReturnsStoredBytes :
    (core [65532, 9] [] 1).wst.words = 65532 :: 9 :: [] ∧
    (effAddr 65532 false (core [65532, 9] [] 1)).toNat + 4 ≤ 65536 ∧
    (Instr.storeW false, Instr.fetchW false, 4) ∈ [(Instr.storeW false, Instr.fetchW false, 4),
      (.storeB false, .fetchB false, 1), (.storeS false, .fetchS false, 2)] ∧
    goes (exec (.storeW false) (core [65532, 9] [] 1)) (fun t =>
      effAddr 65532 false { t with wst := stackOf [65532] } =
        effAddr 65532 false (core [65532, 9] [] 1)) := by
  decide

theorem test_witness_StoreIsSeenByNextFetch :
    (core [65535, 2] [] 65535).runState = .running ∧
    (core [65535, 2] [] 65535).wst.words = 65535 :: 2 :: [] ∧
    (core [65535, 2] [] 65535).pc = 65535 ∧
    (65535 : Word).toNat < 65536 ∧
    decode (BitVec.ofNat 8 (2 : Word).toNat :: (core [65535, 2] [] 65535).mem.bytesFrom 65536 4) =
      .ok (.dup, []) := by
  decide

theorem test_witness_LengthIsKnownFromFirstByte :
    decode (0x01 :: [0, 0, 0, 0]) = .ok (.litW 0, []) ∧
    decode (0x21 :: [9]) = .ok (.litB 9, []) ∧
    decode (0x41 :: [1, 2]) = .ok (.litS 0x201, []) ∧
    decode (0x61 :: []) = .ok (.litX, []) ∧
    decode (0x18 :: [9]) = .ok (.add, [9]) ∧
    (0x18 : Byte).toNat % 32 ≠ 1 ∧
    (0x41 : Byte).toNat / 32 % 4 = 2 := by decide

theorem test_witness_EveryByteHasHandler :
    4 ≤ [(0 : Byte), 0, 0, 0].length := by decide

theorem test_witness_IllegalFormsRaiseAfterPops :
    (core [] [] 1).wst.words = [] ∧
    (core [5] [] 1).wst.words = 5 :: [] ∧
    (core [5] [] 1).wst.words.length < 2 ∧
    (core [6, 5] [] 1).wst.words = 6 :: 5 :: [] ∧
    Instr.fetchX true ∈ [Instr.sextW, .sextX, .fetchX true] := by decide

theorem test_witness_StepRunsDecodedInstruction :
    (withBytes (core [] [] 65535) 65535 [0x18]).runState = .running ∧
    decode (fetchBytes (withBytes (core [] [] 65535) 65535 [0x18])) = .ok (.add, []) := by
  decide

theorem test_witness_StepRunsInstructionInMemory :
    (core [] [] 65531).runState = .running ∧
    (core [] [] 65531).pc.toNat + (encode (.litW 0)).length ≤ 65536 ∧
    (withBytes (core [] [] 65531) 65531 [1, 5]).mem.bytesFrom 65531 5 = encode (.litW 5) := by
  decide

theorem test_witness_FetchIsBoundsChecked :
    State.reset.runState = .running ∧
    65536 ≤ (core [] [] 65536).pc.toNat ∧
    (core [] [] 65535).pc.toNat < 65536 := by decide

theorem test_witness_StoppedCoreIgnoresStep :
    ({ State.reset with runState := .halted } : State).runState ≠ .running ∧
    ({ State.reset with runState := .faulted } : State).runState ≠ .running := by
  decide

theorem test_witness_StepKeepsInvariant :
    (coreMem [5] 1).Inv ∧
    goes (step (coreMem [5] 1)) (fun _ => true) ∧
    ({ State.reset with runState := .faulted, faultCause := 7 } : State).Inv := by
  decide

theorem test_witness_FaultLeavesMemoryAndOutput :
    (withBytes (core [] [] 0) 0 [0x18]).runState = .running ∧
    goes (step (withBytes (core [] [] 0) 0 [0x18])) (fun t => t.runState = .faulted) ∧
    goes (step (core [] [] 65536)) (fun t => t.runState = .faulted) := by decide

theorem test_witness_InstructionFaultsAsTabled :
    State.reset.runState = .running ∧
    faultCondition .add (core [5] [] 1) = some .wstUnderflow ∧
    faultCondition .add (core [6, 5] [] 1) = none := by decide

theorem test_witness_StepFaultsAsTabled :
    stepCause (core [] [] 65536) = some .memoryAccessError ∧
    stepCause (withBytes (core [] [] 65532) 65532 [0x01]) = some .memoryAccessError ∧
    stepCause (withBytes (core [] [] 65535) 65535 [0x61]) = some .invalidInstruction ∧
    stepCause State.reset = none := by decide

theorem test_witness_StepHasThreeOutcomes :
    State.reset.runState = .running ∧
    goes (step (withBytes (core [0, 9] [] 0) 0 [0x1F])) (fun t => t.runState = .halted) ∧
    goes (step (withBytes (core [9] [] 0) 0 [0x18])) (fun t => t.runState = .faulted) ∧
    stepCause (withBytes (core [9] [] 0) 0 [0x18]) = some .wstUnderflow := by decide

theorem test_witness_OnlyStoreChangesMemory :
    goes (exec (.storeB true) (core [4, 9] [] 1)) (fun t => t.mem ≠ (core [4, 9] [] 1).mem) := by
  decide

theorem test_witness_OnlyTrapReachesHost :
    goes (exec .trap (core [0, 9] [] 1)) (fun t => t.runState = .halted) ∧
    (core [0, 9] [] 1).runState ≠ .halted := by decide

theorem test_witness_OnlySixTouchReturnStack :
    ∃ t, exec .wtr (core [9] [] 1) = .next t ∧ t.rst ≠ (core [9] [] 1).rst :=
  ⟨_, rfl, fun h => absurd (congrArg Stack.ptr h) (by decide)⟩

theorem test_witness_OnlyLitAndTransfersWritePc :
    goes (exec (.litB 9) (core [] [] 1)) (fun t => t.pc ≠ (core [] [] 1).pc) := by
  decide

theorem test_witness_SlotsAbovePointerUnobservable :
    (core [5] [] 1).sameView coreStale ∧
      (core [5] [] 1).wst.slots[1] = 0 ∧ coreStale.wst.slots[1] = 3 :=
  ⟨⟨rfl, show (core [5] [] 1).wst.words = coreStale.wst.words by decide, rfl, rfl, rfl, rfl, rfl,
    rfl⟩, by decide⟩

theorem test_witness_NopOnlyAdvancesPc :
    (core [] [] 65535).runState = .running ∧
    (core [] [] 65535).pc.toNat < 65536 ∧
    (core [] [] 65535).mem.read 65535 = 0 := by decide

theorem test_witness_DupCopiesTop :
    (coreRoomW []).wst.words = 7 :: List.replicate 254 7 ∧
    (coreRoomW []).wst.words.length < 256 ∧
    (coreFullW [] 1).wst.words.length = 256 ∧
    (core [] [] 1).wst.words = [] :=
  ⟨roomOf_words 7, roomOf_length 7, fullOf_length 7, by decide⟩

theorem test_witness_DropAndNipRemoveOneWord :
    (core [5] [] 1).wst.words = 5 :: [] ∧
    (core [6, 5] [] 1).wst.words = 6 :: 5 :: [] ∧
    (core [5] [] 1).wst.words.length < 2 ∧
    (core [] [] 1).wst.words = [] := by decide

theorem test_witness_SwapAndOverOnTopTwo :
    (coreFullW [] 1).wst.words = 7 :: 7 :: List.replicate 254 7 ∧
    (coreRoomW []).wst.words = 7 :: 7 :: List.replicate 253 7 ∧
    (coreRoomW []).wst.words.length < 256 ∧
    (coreFullW [] 1).wst.words.length = 256 ∧
    (core [5] [] 1).wst.words.length < 2 :=
  ⟨fullOf_words 7, roomOf_words 7, roomOf_length 7, fullOf_length 7, by decide⟩

theorem test_witness_RotRaisesThird :
    (coreFullW [] 1).wst.words = 7 :: 7 :: 7 :: List.replicate 253 7 ∧
    (core [6, 5] [] 1).wst.words.length < 3 :=
  ⟨fullOf_words 7, by decide⟩

theorem test_witness_WtrMovesTopToReturnStack :
    (coreRoomR [5]).wst.words = 5 :: [] ∧
    (coreRoomR [5]).rst.words.length < 256 ∧
    (coreFullR [5] 1).wst.words = 5 :: [] ∧
    (coreFullR [5] 1).rst.words.length = 256 ∧
    (coreFullR [] 1).wst.words = [] :=
  ⟨by decide, roomOf_length 7, by decide, fullOf_length 7, by decide⟩

theorem test_witness_RtwMovesReturnTopToWorking :
    (core [] [5] 1).rst.words = 5 :: [] ∧
    (core [] [5] 1).wst.words.length < 256 ∧
    (coreRoomW []).wst.words.length < 256 ∧
    (coreFullW [5] 1).rst.words = 5 :: [] ∧
    (coreFullW [5] 1).wst.words.length = 256 ∧
    (coreFullW [] 1).rst.words = [] :=
  ⟨by decide, by decide, roomOf_length 7, by decide, fullOf_length 7, by decide⟩

theorem test_witness_CallPushesReturnAddress :
    (coreRoomR [5]).wst.words = 5 :: [] ∧
    (coreRoomR [5]).rst.words.length < 256 ∧
    (coreFullR [5] 1).rst.words.length = 256 ∧
    (core [] [] 1).wst.words = [] ∧
    (core [] [] 1).rst.words.length < 256 :=
  ⟨by decide, roomOf_length 7, fullOf_length 7, by decide, by decide⟩

theorem test_witness_CcallCallsWhenFlagNotZero :
    (coreRoomR [1, 5]).wst.words = 1 :: 5 :: [] ∧
    (1 : Word) ≠ 0 ∧
    (coreRoomR [1, 5]).rst.words.length < 256 ∧
    (coreFullR [1, 5] 1).wst.words = 1 :: 5 :: [] ∧
    (coreFullR [1, 5] 1).rst.words.length = 256 ∧
    (coreFullR [0, 5] 1).wst.words = 0 :: 5 :: [] ∧
    (core [1] [] 1).wst.words.length < 2 :=
  ⟨by decide, by decide, roomOf_length 7, by decide, fullOf_length 7, by decide, by decide⟩

theorem test_witness_RetPopsIntoPc :
    (core [] [9] 1).rst.words = 9 :: [] ∧
    (coreFullR [] 1).rst.words = 7 :: List.replicate 255 7 ∧
    (core [] [] 1).rst.words = [] :=
  ⟨by decide, fullOf_words 7, by decide⟩

theorem test_witness_CretReturnsWhenFlagNotZero :
    (core [1] [9] 1).wst.words = 1 :: [] ∧
    (1 : Word) ≠ 0 ∧
    (core [1] [9] 1).rst.words = 9 :: [] ∧
    (core [1] [] 1).rst.words = [] ∧
    (core [0] [9] 1).wst.words = 0 :: [] ∧
    (core [] [] 1).wst.words = [] := by decide

theorem test_witness_JmpGoesToTarget :
    (core [9] [] 1).wst.words = 9 :: [] ∧
    (core [] [] 1).wst.words = [] := by decide

theorem test_witness_CjmpGoesWhenFlagNotZero :
    (core [0x80000000, 9] [] 1).wst.words = 0x80000000 :: 9 :: [] ∧
    (0x80000000 : Word) ≠ 0 ∧
    (core [0, 9] [] 1).wst.words = 0 :: 9 :: [] ∧
    (core [9] [] 1).wst.words.length < 2 := by decide

/-- For each clause a state, the immediate at the end of memory. -/
theorem test_witness_LitPushesImmediateFromMemory :
    (withBytes (core [] [] 65532) 65532 [0x01]).runState = .running ∧
    (withBytes (core [] [] 65532) 65532 [0x01]).pc.toNat < 65536 ∧
    opOfBits (opField ((withBytes (core [] [] 65532) 65532 [0x01]).mem.read 65532)) = some .lit ∧
    widthOfBits (sizeField ((withBytes (core [] [] 65532) 65532 [0x01]).mem.read 65532)) = some .word ∧
    65536 < (core [] [] 65532).pc.toNat + 1 + Width.word.bytes ∧
    (withBytes (core [] [] 65533) 65533 [0x41]).runState = .running ∧
    (withBytes (core [] [] 65533) 65533 [0x41]).pc.toNat < 65536 ∧
    opOfBits (opField ((withBytes (core [] [] 65533) 65533 [0x41]).mem.read 65533)) = some .lit ∧
    widthOfBits (sizeField ((withBytes (core [] [] 65533) 65533 [0x41]).mem.read 65533)) = some .short ∧
    (core [] [] 65533).pc.toNat + 1 + Width.short.bytes ≤ 65536 ∧
    (withBytes (coreFullW [] 0) 0 [0x21, 9]).wst.words.length = 256 ∧
    (core [] [] 65533).wst.words.length < 256 ∧
    opOfBits (opField 0x18) ≠ some .lit :=
  ⟨by decide, by decide, by decide, by decide, by decide, by decide, by decide, by decide,
    by decide, by decide, fullOf_length 7, by decide, by decide⟩

theorem test_witness_LitZeroExtendsImmediate :
    (coreRoomW []).wst.words.length < 256 ∧
    (coreFullW [] 1).wst.words.length = 256 :=
  ⟨roomOf_length 7, fullOf_length 7⟩

theorem test_witness_ComparisonsPushOneOrZero :
    (coreFullW [] 1).wst.words = 7 :: 7 :: List.replicate 254 7 ∧
    (core [8, 7] [] 1).wst.words = 8 :: 7 :: [] ∧
    (core [5] [] 1).wst.words.length < 2 ∧
    Instr.gt ∈ [Instr.eq, .neq, .lt, .gt] :=
  ⟨fullOf_words 7, by decide, by decide, by decide⟩

theorem test_witness_LogicIsBitwise :
    (coreFullW [] 1).wst.words = 7 :: 7 :: List.replicate 254 7 ∧
    (core [8, 7] [] 1).wst.words = 8 :: 7 :: [] ∧
    (core [5] [] 1).wst.words.length < 2 ∧
    Instr.xor ∈ [Instr.and, .or, .xor] ∧
    31 < 32 :=
  ⟨fullOf_words 7, by decide, by decide, by decide, by decide⟩

theorem test_witness_ShiftIsLogicalBySignedAmount :
    (coreFullW [] 1).wst.words = 7 :: 7 :: List.replicate 254 7 ∧
    (core [8, 7] [] 1).wst.words = 8 :: 7 :: [] ∧
    (core [5] [] 1).wst.words.length < 2 ∧
    (32 : Word).toInt = 32 ∧
    (31 : Word).toInt = 31 ∧
    (0xFFFFFFE1 : Word).toInt = -31 ∧
    (0xFFFFFFE0 : Word).toInt = -32 ∧
    (0x80000000 : Word).toInt = -2147483648 :=
  ⟨fullOf_words 7, by decide, by decide, by decide, by decide, by decide, by decide, by decide⟩

theorem test_witness_SubSubtractsTopFromSecond :
    (coreFullW [] 1).wst.words = 7 :: 7 :: List.replicate 254 7 ∧
    (core [8, 7] [] 1).wst.words = 8 :: 7 :: [] ∧
    (core [5] [] 1).wst.words.length < 2 :=
  ⟨fullOf_words 7, by decide, by decide⟩

theorem test_witness_AddAndMulWrapSilently :
    (coreFullW [] 1).wst.words = 7 :: 7 :: List.replicate 254 7 ∧
    (core [8, 7] [] 1).wst.words = 8 :: 7 :: [] ∧
    (core [5] [] 1).wst.words.length < 2 ∧
    Instr.mul ∈ [Instr.add, .mul] :=
  ⟨fullOf_words 7, by decide, by decide, by decide⟩

theorem test_witness_DivmodLeavesRemainderAndQuotient :
    (core [2, 7] [] 1).wst.words = 2 :: 7 :: [] ∧
    (2 : Word) ≠ 0 ∧
    (core [0] [] 1).wst.words = 0 :: [] ∧
    (core [5] [] 1).wst.words = [5] ∧
    (5 : Word) ≠ 0 ∧
    (core [] [] 1).wst.words = [] := by decide

theorem test_witness_SextExtendsSignBit :
    (core [0x80] [] 1).wst.words = 0x80 :: [] ∧
    (0x80 : Word).toNat % 256 = 128 ∧
    (0x7FFF : Word).toNat % 65536 < 32768 ∧
    (core [] [] 1).wst.words = [] ∧
    Instr.sextX ∈ [Instr.sextB, .sextS, .sextW, .sextX] := by decide

theorem test_witness_FetchLoadsZeroExtended :
    (core [65532] [] 1).wst.words = 65532 :: [] ∧
    (effAddr 65532 false (core [65532] [] 1)).toNat + 4 ≤ 65536 ∧
    (effAddr 65531 true (core [65531] [] 1)).toNat + 4 ≤ 65536 ∧
    65536 < (effAddr 65535 false (core [65535] [] 1)).toNat + 2 ∧
    65536 < (effAddr 65535 true (core [65535] [] 1)).toNat + 1 ∧
    (Instr.fetchS true, 2) ∈ [(Instr.fetchW true, 4), (.fetchB true, 1), (.fetchS true, 2)] ∧
    (core [] [] 1).wst.words = [] ∧
    Instr.fetchX true ∈ [Instr.fetchW true, .fetchB true, .fetchS true, .fetchX true] := by
  decide

theorem test_witness_StoreWritesLowBytes :
    (core [65532, 9] [] 1).wst.words = 65532 :: 9 :: [] ∧
    (effAddr 65532 false (core [65532, 9] [] 1)).toNat + 4 ≤ 65536 ∧
    65536 < (effAddr 65532 true (core [65532, 9] [] 1)).toNat + 4 ∧
    (Instr.storeB true, 1) ∈ [(Instr.storeW true, 4), (.storeB true, 1), (.storeS true, 2)] ∧
    (core [9] [] 1).wst.words.length < 2 ∧
    Instr.storeX true ∈ [Instr.storeW true, .storeB true, .storeS true, .storeX true] := by
  decide

theorem test_witness_TrapServesTwoSelectors :
    (core [0, 9] [] 1).wst.words = 0 :: 9 :: [] ∧
    (core [1, 98] [] 1).wst.words = 1 :: 98 :: [] ∧
    (core [2] [] 1).wst.words = 2 :: [] ∧
    (2 : Word) ≠ 0 ∧
    (2 : Word) ≠ 1 ∧
    (core [1] [] 1).wst.words = [1] ∧
    (core [] [] 1).wst.words = [] := by decide


end Sys2Proof.Tests
end

section
/-! The checked memory accesses of spec/20_memory.md: which of their two outcomes the bound selects,
and the statements about one read and one write. -/

namespace Sys2Proof.Machine

theorem memRead_of_outside {a : Word} {w : Width} (s : State)
    (h : Config.memBytes < a.toNat + w.bytes) : memRead a w s = .raised .memoryAccessError s := by
  obtain ⟨-, e⟩ | ⟨hin, -⟩ := memRead_cases a w s
  · exact e
  · exact absurd hin (not_le.2 h)

theorem memRead_of_inside {a : Word} {w : Width} (s : State)
    (h : a.toNat + w.bytes ≤ Config.memBytes) :
    memRead a w s = .ok (s.mem.readWidth a.toNat w) s := by
  obtain ⟨hout, -⟩ | ⟨-, e⟩ := memRead_cases a w s
  · exact absurd h (not_le.2 hout)
  · exact e

theorem memWrite_of_outside {a : Word} {w : Width} (v : Word) (s : State)
    (h : Config.memBytes < a.toNat + w.bytes) :
    memWrite a w v s = .raised .memoryAccessError s := by
  obtain ⟨-, e⟩ | ⟨hin, -⟩ := memWrite_cases a w v s
  · exact e
  · exact absurd hin (not_le.2 h)

theorem memWrite_of_inside {a : Word} {w : Width} (v : Word) (s : State)
    (h : a.toNat + w.bytes ≤ Config.memBytes) :
    memWrite a w v s = .ok () { s with mem := s.mem.writeWidth a.toNat v w } := by
  obtain ⟨hout, -⟩ | ⟨-, e⟩ := memWrite_cases a w v s
  · exact absurd h (not_le.2 hout)
  · exact e

/-- Settles O6: the bound selects the outcome of the read, and the Word it answers is the
little-endian number of the bytes by `Memory.readWidth_toNat`. -/
theorem readIsCheckedLittleEndian : Obligations.ReadIsCheckedLittleEndian := fun addr w s =>
  ⟨memRead_of_outside s, fun inside =>
    ⟨s.mem.readWidth addr.toNat w, memRead_of_inside s inside, Memory.readWidth_toNat _ _ _⟩⟩

/-- Settles O7: the bound selects the outcome of the write, and the memory it leaves is the one
`Memory.writtenAt_writeWidth` describes byte by byte. -/
theorem writeIsCheckedLittleEndian : Obligations.WriteIsCheckedLittleEndian := fun addr w v s =>
  ⟨memWrite_of_outside v s, fun inside =>
    ⟨s.mem.writeWidth addr.toNat v w, memWrite_of_inside v s inside,
      Memory.writtenAt_writeWidth _ _ _ _⟩⟩

end Sys2Proof.Machine
end

section
/-! The instruction byte of spec/30_encoding.md as a number: the value the encoder gives it and the
three slices the decoder takes of it (R50). -/

namespace Sys2Proof

/-- Appending bits is positional notation: `x` counts in units of `2 ^ n`. -/
theorem toNat_append_eq_add {m n : Nat} (x : BitVec m) (y : BitVec n) :
    (x ++ y).toNat = x.toNat * 2 ^ n + y.toNat := by
  rw [BitVec.toNat_append, ← Nat.shiftLeft_add_eq_or_of_lt y.isLt, Nat.shiftLeft_eq]

/-- The table numbers every opcode (R54). -/
theorem mem_opcodeTable (op : Op) : op ∈ opcodeTable := by
  cases op <;> decide

/-- The opcode number fits its 5-bit field. -/
theorem opBits_toNat (op : Op) : (opBits op).toNat = opcodeTable.idxOf op := by
  have h : opcodeTable.idxOf op < 2 ^ 5 := List.idxOf_lt_length_of_mem (mem_opcodeTable op)
  rw [opBits, BitVec.toNat_ofNat, Nat.mod_eq_of_lt h]

theorem instrByte_toNat (op : Op) (size : Option Width) (rel : Bool) :
    (instrByte op size rel).toNat =
      (if rel then 128 else 0) + (widthBits size).toNat * 32 + opcodeTable.idxOf op := by
  have hrel : rel.toNat * 128 = if rel then 128 else 0 := by cases rel <;> rfl
  rw [instrByte, toNat_append_eq_add, toNat_append_eq_add, BitVec.toNat_ofBool, opBits_toNat,
    ← hrel]
  omega

theorem opField_toNat (b : Byte) : (opField b).toNat = b.toNat % 32 := by
  rw [opField, BitVec.extractLsb'_toNat, Nat.shiftRight_zero]

theorem sizeField_toNat (b : Byte) : (sizeField b).toNat = b.toNat / 32 % 4 := by
  rw [sizeField, BitVec.extractLsb'_toNat, Nat.shiftRight_eq_div_pow]

/-- The relative flag is the most significant bit, so it compares the byte with 128. -/
theorem relField_iff (b : Byte) : relField b = true ↔ 128 ≤ b.toNat := by
  have hmsb : relField b = b.msb := rfl
  rw [hmsb, BitVec.msb_eq_decide, decide_eq_true_iff]

/-- Settles O12: the fields are appended as digits of the byte, and each is read back as a slice. -/
theorem instructionByteFields : Obligations.InstructionByteFields :=
  ⟨instrByte_toNat, fun b => ⟨opField_toNat b, sizeField_toNat b, relField_iff b⟩⟩

end Sys2Proof
end

section
/-! The stack primitives of spec/10_state.md: what one push and one pop do to the slots and the pointer,
and what a run of them does to the Words (R103). -/

namespace Sys2Proof.Machine

/-! ### One push, one pop -/

/-- A push that succeeds writes the slot at the pointer and no other (R92). -/
theorem Stack.push_slots (st : Stack) (v : Word) (h : st.ptr.val < 256) :
    ∃ st', st.push v = some st' ∧ st'.words = v :: st.words ∧ st'.ptr.val = st.ptr.val + 1 ∧
      ∀ k : Fin 256, st'.slots[k] = if k.val = st.ptr.val then v else st.slots[k] := by
  obtain ⟨st', e, hwords, hptr, hslots⟩ := st.push_room v h
  refine ⟨st', e, hwords, hptr, fun k => ?_⟩
  simp only [Fin.getElem_fin, hslots, Vector.getElem_set, eq_comm]

/-- A pop that succeeds gives the Word in the slot the pointer then names (R93). -/
theorem Stack.pop_slots (st : Stack) (h : 0 < st.ptr.val) :
    ∃ v st', st.pop = some (v, st') ∧ st'.ptr.val + 1 = st.ptr.val ∧ st'.slots = st.slots ∧
      st.slots[st'.ptr.val]? = some v ∧ st.words = v :: st'.words := by
  obtain ⟨v, st', e, hwords, hptr, hslots, htop⟩ := st.pop_some h
  have hbelow : st'.ptr.val = st.ptr.val - 1 := by omega
  exact ⟨v, st', e, hptr, hslots, hbelow ▸ htop, hwords⟩

theorem wPush_of_push {s : State} {v : Word} {st : Stack} (h : s.wst.push v = some st) :
    wPush v s = .ok () { s with wst := st } := by
  simp only [wPush, h]

theorem rPush_of_push {s : State} {v : Word} {st : Stack} (h : s.rst.push v = some st) :
    rPush v s = .ok () { s with rst := st } := by
  simp only [rPush, h]

theorem wPop_of_pop {s : State} {v : Word} {st : Stack} (h : s.wst.pop = some (v, st)) :
    wPop s = .ok v { s with wst := st } := by
  simp only [wPop, h]

theorem rPop_of_pop {s : State} {v : Word} {st : Stack} (h : s.rst.pop = some (v, st)) :
    rPop s = .ok v { s with rst := st } := by
  simp only [rPop, h]

theorem Stack.not_room_of_ptr {st : Stack} (h : st.ptr.val = 256) :
    ¬ st.words.length < Config.stackWords := by
  rw [st.words_length, h]
  exact lt_irrefl _

theorem Stack.words_nil_of_ptr {st : Stack} (h : st.ptr.val = 0) : st.words = [] :=
  List.eq_nil_of_length_eq_zero (st.words_length.trans h)

/-- Settles O3: `Stack.push_slots` for the slots, `wPush_of_full` and `rPush_of_full` for the
overflow. -/
theorem pushWritesSlotAtPointer : Obligations.PushWritesSlotAtPointer := by
  intro v s
  refine ⟨fun h => wPush_of_full v (Stack.not_room_of_ptr h), fun h => ?_,
    fun h => rPush_of_full v (Stack.not_room_of_ptr h), fun h => ?_⟩
  · obtain ⟨st, e, hst⟩ := s.wst.push_slots v h
    exact ⟨st, wPush_of_push e, hst⟩
  · obtain ⟨st, e, hst⟩ := s.rst.push_slots v h
    exact ⟨st, rPush_of_push e, hst⟩

/-- Settles O4: `Stack.pop_slots` for the slots, `wPop_of_nil` and `rPop_of_nil` for the
underflow. -/
theorem popReadsSlotBelowPointer : Obligations.PopReadsSlotBelowPointer := by
  intro s
  refine ⟨fun h => wPop_of_nil (Stack.words_nil_of_ptr h), fun h => ?_,
    fun h => rPop_of_nil (Stack.words_nil_of_ptr h), fun h => ?_⟩
  · obtain ⟨v, st, e, hst⟩ := s.wst.pop_slots h
    exact ⟨v, st, wPop_of_pop e, hst⟩
  · obtain ⟨v, st, e, hst⟩ := s.rst.pop_slots h
    exact ⟨v, st, rPop_of_pop e, hst⟩

/-! ### Runs of pushes and pops

Said once for both stacks: `put st` is the state with the stack `st` in the place of one of its two. -/

/-- `push` adds to the stack that `put` places, or raises `c` when it is full, and touches nothing
else. -/
def PushesOnto (push : Word → State → Res Unit) (put : Stack → State) (c : Cause) : Prop :=
  ∀ v st, (st.words.length < 256 →
      ∃ st', push v (put st) = .ok () (put st') ∧ st'.words = v :: st.words) ∧
    (st.words.length = 256 → push v (put st) = .raised c (put st))

/-- `pop` takes the top of the stack that `put` places and touches nothing else. -/
def PopsFrom (pop : State → Res Word) (put : Stack → State) : Prop :=
  ∀ v w st, st.words = v :: w → ∃ st', pop (put st) = .ok v (put st') ∧ st'.words = w

theorem wPush_pushesOnto (s : State) :
    PushesOnto wPush (fun st => { s with wst := st }) .wstOverflow := fun v st =>
  ⟨fun h => wPush_of_room (s := { s with wst := st }) v h,
    fun h => wPush_of_full (s := { s with wst := st }) v h.not_lt⟩

theorem rPush_pushesOnto (s : State) :
    PushesOnto rPush (fun st => { s with rst := st }) .rstOverflow := fun v st =>
  ⟨fun h => rPush_of_room (s := { s with rst := st }) v h,
    fun h => rPush_of_full (s := { s with rst := st }) v h.not_lt⟩

theorem wPop_popsFrom (s : State) : PopsFrom wPop (fun st => { s with wst := st }) :=
  fun _ _ st h => wPop_of_cons (s := { s with wst := st }) h

theorem rPop_popsFrom (s : State) : PopsFrom rPop (fun st => { s with rst := st }) :=
  fun _ _ st h => rPop_of_cons (s := { s with rst := st }) h

section
variable {push : Word → State → Res Unit} {pop : State → Res Word} {put : Stack → State} {c : Cause}

/-- Pushes that fit leave their Words on the stack, the last on top. -/
theorem pushAll_of_room (hpush : PushesOnto push put c) (vs : List Word) (st : Stack)
    (h : st.words.length + vs.length ≤ 256) :
    ∃ st', pushAll push vs (put st) = .ok () (put st') ∧ st'.words = vs.reverse ++ st.words := by
  induction vs generalizing st with
  | nil => exact ⟨st, rfl, rfl⟩
  | cons v vs ih =>
    rw [List.length_cons] at h
    obtain ⟨st₁, e₁, w₁⟩ := (hpush v st).1 (by omega)
    obtain ⟨st₂, e₂, w₂⟩ := ih st₁ (by rw [w₁, List.length_cons]; omega)
    exact ⟨st₂, by rw [pushAll, e₁, Res.andThen_ok, e₂], by simp [w₂, w₁]⟩

/-- Pops of Words that are there give them, the top first. -/
theorem popMany_of_words (hpop : PopsFrom pop put) (vs w : List Word) (st : Stack)
    (h : st.words = vs ++ w) :
    ∃ st', popMany pop vs.length (put st) = .ok vs (put st') ∧ st'.words = w := by
  induction vs generalizing st with
  | nil => exact ⟨st, rfl, h⟩
  | cons v vs ih =>
    obtain ⟨st₁, e₁, w₁⟩ := hpop v (vs ++ w) st h
    obtain ⟨st₂, e₂, w₂⟩ := ih st₁ w₁
    exact ⟨st₂, by rw [List.length_cons, popMany, e₁, Res.andThen_ok, e₂, Res.andThen_ok], w₂⟩

theorem pushAll_append (us vs : List Word) (s : State) :
    pushAll push (us ++ vs) s = (pushAll push us s).andThen fun _ s => pushAll push vs s := by
  induction us generalizing s with
  | nil => rfl
  | cons u us ih =>
    rw [List.cons_append, pushAll, pushAll]
    cases push u s with
    | ok _ t => exact ih t
    | raised c t => rfl

/-- Last in, first out: pops undo as many pushes, in reverse order. -/
theorem popMany_pushAll (hpush : PushesOnto push put c) (hpop : PopsFrom pop put) (vs : List Word)
    (st : Stack) (h : st.words.length + vs.length ≤ 256) :
    ∃ pushed popped : Stack, pushAll push vs (put st) = .ok () (put pushed) ∧
      popMany pop vs.length (put pushed) = .ok vs.reverse (put popped) ∧
      popped.words = st.words := by
  obtain ⟨pushed, e₁, w₁⟩ := pushAll_of_room hpush vs st h
  obtain ⟨popped, e₂, w₂⟩ := popMany_of_words hpop vs.reverse st.words pushed w₁
  exact ⟨pushed, popped, e₁, by rwa [List.length_reverse] at e₂, w₂⟩

/-- An empty stack takes 256 pushes and refuses the next. -/
theorem pushAll_overflow (hpush : PushesOnto push put c) (vs : List Word) (v : Word) (st : Stack)
    (hvs : vs.length = 256) (hst : st.words = []) :
    ∃ st', pushAll push (vs ++ [v]) (put st) = .raised c (put st') ∧ st'.words = vs.reverse := by
  obtain ⟨st', e, w⟩ := pushAll_of_room hpush vs st (by rw [hst, hvs]; rfl)
  rw [hst, List.append_nil] at w
  have hfull : st'.words.length = 256 := by rw [w, List.length_reverse, hvs]
  exact ⟨st', by rw [pushAll_append, e, Res.andThen_ok, pushAll, (hpush v st').2 hfull,
    Res.andThen_raised], w⟩

end

/-- Settles O5: `popMany_pushAll` and `pushAll_overflow` at each of the two stacks. -/
theorem stacksAreLastInFirstOut : Obligations.StacksAreLastInFirstOut :=
  ⟨fun vs s => popMany_pushAll (wPush_pushesOnto s) (wPop_popsFrom s) vs s.wst,
    fun vs s => popMany_pushAll (rPush_pushesOnto s) (rPop_popsFrom s) vs s.rst,
    fun vs v s hvs => ⟨pushAll_overflow (wPush_pushesOnto s) vs v s.wst hvs,
      pushAll_overflow (rPush_pushesOnto s) vs v s.rst hvs⟩,
    fun _ => ⟨wPop_of_nil, rPop_of_nil⟩⟩

end Sys2Proof.Machine
end

section
/-! The stack instructions of spec/41_stack_ops.md that copy the top Word or move it between the
stacks. -/

namespace Sys2Proof.Machine

/-- `dup` on a Word: after its pop and first push the Words are as before, and the second push
decides (R95). -/
theorem exec_dup_of_cons {s : State} {a : Word} {rest : List Word} (h : s.wst.words = a :: rest) :
    ∃ st : Stack, st.words = a :: rest ∧
      exec .dup s = finish (wPush a { s with wst := st }) := by
  have hlen := Stack.length_le_of_words h
  rw [List.length_cons] at hlen
  obtain ⟨st₁, w₁, e₁⟩ := wPop_then (fun a s => (wPush a s).andThen fun _ s => wPush a s) h
  obtain ⟨st₂, e₂, w₂⟩ := wPush_with_room (s := s) a w₁ (show rest.length < 256 by omega)
  exact ⟨st₂, w₂, congrArg finish (e₁.trans (by rw [e₂, Res.andThen_ok]))⟩

/-- `wtr` on a Word: it is popped before the push on the return stack (R101). -/
theorem exec_wtr_of_cons {s : State} {a : Word} {rest : List Word} (h : s.wst.words = a :: rest) :
    ∃ st : Stack, st.words = rest ∧ exec .wtr s = finish (rPush a { s with wst := st }) := by
  obtain ⟨st, w, e⟩ := wPop_then (fun a s => rPush a s) h
  exact ⟨st, w, congrArg finish e⟩

/-- `rtw` on a Word: it is popped from the return stack before the push (R102). -/
theorem exec_rtw_of_cons {s : State} {a : Word} {rest : List Word} (h : s.rst.words = a :: rest) :
    ∃ st : Stack, st.words = rest ∧ exec .rtw s = finish (wPush a { s with rst := st }) := by
  obtain ⟨st, e, w⟩ := rPop_of_cons h
  exact ⟨st, w, by rw [exec, execRtw, e, Res.andThen_ok]⟩

/-- Settles O36: with a Word on top the second push of `exec_dup_of_cons` selects the outcome. -/
theorem dupCopiesTop : Obligations.DupCopiesTop := by
  refine fun s => ⟨fun a rest h room => ?_, fun full => ?_, fun h => ?_⟩
  · obtain ⟨st, w, e⟩ := exec_dup_of_cons h
    obtain ⟨st', e', w'⟩ := wPush_with_room (s := s) a w (h ▸ room)
    exact ⟨st', w', by rw [e, e', finish_ok]⟩
  · obtain ⟨a, rest, h⟩ := List.exists_cons_of_length_pos (show 0 < s.wst.words.length by omega)
    obtain ⟨st, w, e⟩ := exec_dup_of_cons h
    have hfull : ¬ (a :: rest).length < 256 := by rw [← h, full]; exact lt_irrefl _
    exact ⟨st, w.trans h.symm, by rw [e, wPush_with_full a w hfull, finish_raised]; rfl⟩
  · exact ⟨s.wst, h, congrArg finish (wPop_then_nil _ h)⟩

/-- Settles O40: after the pop of `exec_wtr_of_cons` the push on the return stack selects the
outcome. -/
theorem wtrMovesTopToReturnStack : Obligations.WtrMovesTopToReturnStack := by
  refine fun s => ⟨fun a rest h room => ?_, fun a rest h full => ?_, fun h => ?_⟩
  · obtain ⟨ws, w, e⟩ := exec_wtr_of_cons h
    obtain ⟨rs, e', w'⟩ := rPush_of_room (s := { s with wst := ws }) a room
    exact ⟨ws, rs, w, w', by rw [e, e', finish_ok]⟩
  · obtain ⟨ws, w, e⟩ := exec_wtr_of_cons h
    have overflow := rPush_of_full (s := { s with wst := ws }) a full.not_lt
    exact ⟨ws, w, by rw [e, overflow, finish_raised]; rfl⟩
  · exact ⟨s.wst, h, congrArg finish (wPop_then_nil _ h)⟩

/-- Settles O41: after the pop of `exec_rtw_of_cons` the push on the working stack selects the
outcome. -/
theorem rtwMovesReturnTopToWorking : Obligations.RtwMovesReturnTopToWorking := by
  refine fun s => ⟨fun a rest h room => ?_, fun a rest h full => ?_, fun h => ?_⟩
  · obtain ⟨rs, w, e⟩ := exec_rtw_of_cons h
    obtain ⟨ws, e', w'⟩ := wPush_of_room (s := { s with rst := rs }) a room
    exact ⟨ws, rs, w', w, by rw [e, e', finish_ok]⟩
  · obtain ⟨rs, w, e⟩ := exec_rtw_of_cons h
    have overflow := wPush_of_full (s := { s with rst := rs }) a full.not_lt
    exact ⟨s.wst, rs, rfl, w, by rw [e, overflow, finish_raised]; rfl⟩
  · have underflow : exec .rtw s = finish (.raised .rstUnderflow s) := by
      rw [exec, execRtw, rPop_of_nil h, Res.andThen_raised]
    exact underflow

end Sys2Proof.Machine
end

section
/-! The control-flow instructions of spec/42_control_flow.md: the calls, the return and the jumps. A pop
or a push before the write of `pc` changes a stack only, so the target is the one the first state gives. -/

namespace Sys2Proof.Machine

theorem flagTrue_of_ne {f : Word} (h : f ≠ 0) : flagTrue f = true := bne_iff_ne.2 h

@[simp] theorem flagTrue_zero : flagTrue 0 = false := rfl

/-- `jmp` on a Word: it becomes the target once it is popped (R114). -/
theorem exec_jmp_of_cons {s : State} (rel : Bool) {t : Word} {rest : List Word}
    (h : s.wst.words = t :: rest) :
    ∃ st : Stack, st.words = rest ∧
      exec (.jmp rel) s = .next { s with wst := st, pc := target t rel s } := by
  obtain ⟨st, w, e⟩ := wPop_then (fun t s => setPc (target t rel s) s) h
  exact ⟨st, w, congrArg finish e⟩

theorem exec_jmp_of_nil {s : State} (rel : Bool) (h : s.wst.words = []) :
    exec (.jmp rel) s = .next (raise .wstUnderflow s) :=
  congrArg finish (wPop_then_nil _ h)

/-- `call` with room: the return address stands whatever the pop of the target then does, and with a
target the rest is `jmp` (R110). -/
theorem exec_call_of_room {s : State} (rel : Bool) (room : s.rst.words.length < 256) :
    ∃ rs : Stack, rs.words = s.pc :: s.rst.words ∧
      exec (.call rel) s = exec (.jmp rel) { s with rst := rs } := by
  obtain ⟨rs, e, w⟩ := rPush_of_room s.pc room
  exact ⟨rs, w, by rw [exec, execCall, e, Res.andThen_ok]; rfl⟩

/-- `ccall` on two Words: both are popped before the flag is looked at (R111). -/
theorem exec_ccall_of_two {s : State} (rel : Bool) {f t : Word} {rest : List Word}
    (h : s.wst.words = f :: t :: rest) :
    ∃ st : Stack, st.words = rest ∧ exec (.ccall rel) s = finish
      (if flagTrue f then
        (rPush s.pc { s with wst := st }).andThen fun _ u => setPc (target t rel u) u
      else .ok () { s with wst := st }) := by
  obtain ⟨st, w, e⟩ := wPop_wPop_then (fun f t s => if flagTrue f then
    (rPush s.pc s).andThen fun _ u => setPc (target t rel u) u else .ok () s) h
  exact ⟨st, w, congrArg finish e⟩

/-- `cjmp` on two Words: both are popped before the flag is looked at (R115). -/
theorem exec_cjmp_of_two {s : State} (rel : Bool) {f t : Word} {rest : List Word}
    (h : s.wst.words = f :: t :: rest) :
    ∃ st : Stack, st.words = rest ∧ exec (.cjmp rel) s = .next
      { s with wst := st, pc := if flagTrue f then target t rel s else s.pc } := by
  obtain ⟨st, w, e⟩ := wPop_wPop_then
    (fun f t s => if flagTrue f then setPc (target t rel s) s else .ok () s) h
  refine ⟨st, w, (congrArg finish e).trans ?_⟩
  cases flagTrue f <;> rfl

/-- Settles O47: the pop of the target selects the outcome. -/
theorem jmpGoesToTarget : Obligations.JmpGoesToTarget := fun rel s =>
  ⟨fun _ _ => exec_jmp_of_cons rel, fun h => ⟨s.wst, h, exec_jmp_of_nil rel h⟩⟩

/-- Settles O43: with room `exec_call_of_room` leaves a `jmp` after the push, and the pop of its target
selects the outcome. -/
theorem callPushesReturnAddress : Obligations.CallPushesReturnAddress := by
  refine fun rel s => ⟨fun t rest h room => ?_, fun full => ?_, fun h room => ?_⟩
  · obtain ⟨rs, wr, e⟩ := exec_call_of_room rel room
    obtain ⟨ws, ww, e'⟩ := exec_jmp_of_cons (s := { s with rst := rs }) rel h
    exact ⟨ws, rs, ww, wr, e.trans e'⟩
  · have overflow : exec (.call rel) s = finish (.raised .rstOverflow s) := by
      rw [exec, execCall, rPush_of_full s.pc full.not_lt, Res.andThen_raised]
    exact overflow
  · obtain ⟨rs, wr, e⟩ := exec_call_of_room rel room
    exact ⟨s.wst, rs, h, wr, e.trans (exec_jmp_of_nil (s := { s with rst := rs }) rel h)⟩

/-- Settles O44: after the pops of `exec_ccall_of_two` the flag selects the push of the return
address, and the room for it the outcome. -/
theorem ccallCallsWhenFlagNotZero : Obligations.CcallCallsWhenFlagNotZero := by
  refine fun rel s => ⟨fun t f rest h taken room => ?_, fun t f rest h taken full => ?_,
    fun t rest h => ?_, fun short => ?_⟩
  · obtain ⟨ws, ww, e⟩ := exec_ccall_of_two rel h
    obtain ⟨rs, e', wr⟩ := rPush_of_room (s := { s with wst := ws }) s.pc room
    exact ⟨ws, rs, ww, wr, by rw [e, if_pos (flagTrue_of_ne taken), e', Res.andThen_ok]; rfl⟩
  · obtain ⟨ws, ww, e⟩ := exec_ccall_of_two rel h
    have overflow := rPush_of_full (s := { s with wst := ws }) s.pc full.not_lt
    exact ⟨ws, ww, by
      rw [e, if_pos (flagTrue_of_ne taken), overflow, Res.andThen_raised]; rfl⟩
  · exact exec_ccall_of_two rel h
  · obtain ⟨st, w, e⟩ := wPop_wPop_short _ short
    exact ⟨st, w, congrArg finish e⟩

/-- Settles O45: the pop of the return stack selects the outcome. -/
theorem retPopsIntoPc : Obligations.RetPopsIntoPc := by
  refine fun s => ⟨fun r rest h => ?_, fun h => ?_⟩
  · obtain ⟨st, e, w⟩ := rPop_of_cons h
    exact ⟨st, w, by rw [exec, execRet, e, Res.andThen_ok]; rfl⟩
  · have underflow : exec .ret s = finish (.raised .rstUnderflow s) := by
      rw [exec, execRet, rPop_of_nil h, Res.andThen_raised]
    exact underflow

/-- Settles O48: after the pops of `exec_cjmp_of_two` the flag selects `pc`. -/
theorem cjmpGoesWhenFlagNotZero : Obligations.CjmpGoesWhenFlagNotZero := by
  refine fun rel s => ⟨fun t f rest h taken => ?_, fun t rest h => ?_, fun short => ?_⟩
  · obtain ⟨st, w, e⟩ := exec_cjmp_of_two rel h
    exact ⟨st, w, by rw [e, if_pos (flagTrue_of_ne taken)]⟩
  · exact exec_cjmp_of_two rel h
  · obtain ⟨st, w, e⟩ := wPop_wPop_short _ short
    exact ⟨st, w, congrArg finish e⟩

end Sys2Proof.Machine
end

section
/-! The decoder and the encoder of spec/30_encoding.md: how many bytes the decoder takes, which
fields of the first byte it looks at, and that it inverts the encoder. -/

namespace Sys2Proof

/-- Settles O11: the three literals carry their immediate in further bytes; every other instruction
is one byte, whose fields `decode_instrByte` reads back. -/
theorem decodeInvertsEncode : Obligations.DecodeInvertsEncode := by
  intro i rest
  cases i with
  | litW imm => exact Laws.RoundTrip.litW imm rest
  | litB imm => exact Laws.RoundTrip.litB imm rest
  | litS imm => exact Laws.RoundTrip.litS imm rest
  | _ => exact Laws.RoundTrip.decode_instrByte _ _ _ rest

/-! ### Length -/

/-- The number of immediate bytes a size field of `lit` announces (R56). -/
def litBytes (size : Option Width) : Nat := size.elim 0 Width.bytes

/-- A size field has four values, `11` the one without a width (R52). -/
theorem litBytes_widthOfBits (n : BitVec 2) :
    litBytes (widthOfBits n) =
      if n.toNat = 0 then 4 else if n.toNat = 1 then 1 else if n.toNat = 2 then 2 else 0 := by
  revert n; decide

theorem opField_eq_one_iff (b : Byte) : opField b = 1 ↔ b.toNat % 32 = 1 := by
  rw [← opField_toNat, ← BitVec.toNat_inj]
  rfl

theorem immediateBytes_of_lit {b : Byte} (h : opField b = 1) :
    Machine.immediateBytes b = litBytes (widthOfBits (sizeField b)) := by
  rw [Machine.immediateBytes, if_pos ((opField_eq_one_iff b).1 h), litBytes_widthOfBits,
    sizeField_toNat]

theorem immediateBytes_of_ne_lit {b : Byte} (h : opField b ≠ 1) : Machine.immediateBytes b = 0 :=
  if_neg fun hb => h ((opField_eq_one_iff b).2 hb)

/-- Everything the decoder can do with `lit`: too few bytes follow, or the immediate is taken. -/
theorem decodeLit_cases (size : Option Width) (rest : List Byte) :
    (rest.length < litBytes size ∧ decodeLit size rest = .error .immediateCutShort) ∨
      (litBytes size ≤ rest.length ∧ ∃ i, (encode i).length = 1 + litBytes size ∧
        decodeLit size rest = .ok (i, rest.drop (litBytes size))) := by
  match size, rest with
  | none, _ => exact .inr ⟨Nat.zero_le _, .litX, rfl, rfl⟩
  | some .byte, [] => exact .inl ⟨by decide, rfl⟩
  | some .byte, _ :: _ => exact .inr ⟨Nat.le_add_left _ _, .litB _, rfl, rfl⟩
  | some .short, [] | some .short, [_] => exact .inl ⟨by simp [litBytes, Width.bytes], rfl⟩
  | some .short, _ :: _ :: _ => exact .inr ⟨Nat.le_add_left _ _, .litS _, rfl, rfl⟩
  | some .word, [] | some .word, [_] | some .word, [_, _] | some .word, [_, _, _] =>
    exact .inl ⟨by simp [litBytes, Width.bytes], rfl⟩
  | some .word, _ :: _ :: _ :: _ :: _ => exact .inr ⟨Nat.le_add_left _ _, .litW _, rfl, rfl⟩

/-- Everything the decoder can do with a first byte, by the number of bytes that follow it: fewer
than it announces, or an instruction of the length it announces (R58). -/
theorem decode_cons_by_length (b : Byte) (rest : List Byte) :
    (rest.length < Machine.immediateBytes b ∧ decode (b :: rest) = .error .immediateCutShort) ∨
      (Machine.immediateBytes b ≤ rest.length ∧ ∃ i,
        (encode i).length = 1 + Machine.immediateBytes b ∧
        decode (b :: rest) = .ok (i, rest.drop (Machine.immediateBytes b))) := by
  obtain ⟨hlit, e⟩ | ⟨hlit, i, hlen, e⟩ := decode_cons_cases b
  · rw [immediateBytes_of_lit hlit, e]
    exact decodeLit_cases _ _
  · rw [immediateBytes_of_ne_lit hlit]
    exact .inr ⟨Nat.zero_le _, i, hlen, e rest⟩

/-- Settles O14: the length is `1 + immediateBytes b` by `decode_cons_by_length`, and the rest is
the value of `immediateBytes`. -/
theorem lengthIsKnownFromFirstByte : Obligations.LengthIsKnownFromFirstByte := by
  intro b rest tail i h
  obtain ⟨-, e⟩ | ⟨-, j, hlen, e⟩ := decode_cons_by_length b rest
  · exact nomatch e.symm.trans h
  · obtain ⟨rfl, rfl⟩ : j = i ∧ rest.drop (Machine.immediateBytes b) = tail :=
      Prod.mk.inj (Except.ok.inj (e.symm.trans h))
    refine ⟨1 + Machine.immediateBytes b, by rw [Nat.add_comm, List.drop_succ_cons], hlen.symm, rfl,
      fun hop => ?_, fun hop hsize => ?_, fun hop hsize => ?_, fun hop hsize => ?_⟩
    · rw [Machine.immediateBytes, if_neg hop]
    all_goals simp [Machine.immediateBytes, hop, hsize]

/-! ### Fields that an opcode does not use -/

/-- The opcodes that read the size field (R55). -/
def Op.usesSize : Op → Bool
  | .lit | .fetch | .store | .sext => true
  | _ => false

/-- The opcodes that read the relative flag (R55). -/
def Op.usesRel : Op → Bool
  | .call | .ccall | .jmp | .cjmp | .fetch | .store => true
  | _ => false

/-- The decoder looks at a field only if the opcode uses it (R61). -/
theorem decodeOp_congr {op : Op} {size size' : Option Width} {rel rel' : Bool}
    (hsize : op.usesSize = true → size = size') (hrel : op.usesRel = true → rel = rel')
    (rest : List Byte) : decodeOp op size rel rest = decodeOp op size' rel' rest := by
  cases op with
  | lit | sext => rw [hsize rfl]; rfl
  | call | ccall | jmp | cjmp => rw [hrel rfl]; rfl
  | fetch | store => rw [hsize rfl, hrel rfl]
  | _ => rfl

/-- The canonical byte has the fields its opcode uses, by the opcode numbers of R54. -/
theorem canonicalByte_fields (b : Byte) :
    opField (Machine.canonicalByte b) = opField b ∧
      ∀ op ∈ opOfBits (opField b),
        (op.usesSize = true → sizeField b = sizeField (Machine.canonicalByte b)) ∧
        (op.usesRel = true → relField b = relField (Machine.canonicalByte b)) := by
  revert b; decide

theorem decode_canonicalByte (b : Byte) (rest : List Byte) :
    decode (b :: rest) = decode (Machine.canonicalByte b :: rest) := by
  obtain ⟨hop, huses⟩ := canonicalByte_fields b
  obtain ⟨op, h⟩ := opOfBits_isSome (opField b)
  obtain ⟨hsize, hrel⟩ := huses op h
  simp only [decode, hop, h]
  exact decodeOp_congr (fun hu => congrArg widthOfBits (hsize hu)) hrel rest

/-- Settles O13: `decode_canonicalByte`, and the first byte of each encoding is canonical whatever
its relative flag. -/
theorem unusedFieldsAreIgnored : Obligations.UnusedFieldsAreIgnored := by
  refine ⟨decode_canonicalByte, fun i => ?_⟩
  cases i with
  | call rel | ccall rel | jmp rel | cjmp rel | fetchW rel | fetchB rel | fetchS rel | fetchX rel
  | storeW rel | storeB rel | storeS rel | storeX rel =>
    exact ⟨_, _, rfl, by cases rel <;> rfl⟩
  | _ => exact ⟨_, _, rfl, rfl⟩

/-! ### Legal bytes -/

/-- Whether a size field is legal for an opcode (R60). -/
def Op.legalSize : Op → Option Width → Bool
  | .lit, size | .fetch, size | .store, size => size.isSome
  | .sext, size => size = some .byte ∨ size = some .short
  | _, _ => true

theorem wellFormed_of_decodeLit {size : Option Width} {rest tail : List Byte} {i : Instr}
    (h : decodeLit size rest = .ok (i, tail)) : i.wellFormed = size.isSome := by
  unfold decodeLit at h
  repeat' split at h
  all_goals cases h
  all_goals rfl

/-- Only the opcode and the size field decide whether an instruction is well formed. -/
theorem wellFormed_of_decodeOp {op : Op} {size : Option Width} {rel : Bool} {rest tail : List Byte}
    {i : Instr} (h : decodeOp op size rel rest = .ok (i, tail)) :
    i.wellFormed = op.legalSize size := by
  cases op with
  | lit => exact wellFormed_of_decodeLit h
  | fetch | store | sext => cases h; rcases size with _ | (_ | _ | _) <;> rfl
  | _ => cases h; rfl

/-- The ten bytes of R60 are those whose size field is illegal for their opcode. -/
theorem mem_illegalBytes_iff (b : Byte) :
    ∀ op ∈ opOfBits (opField b),
      op.legalSize (widthOfBits (sizeField b)) = false ↔ b.toNat ∈ Machine.illegalBytes := by
  revert b; decide

theorem immediateBytes_le (b : Byte) : Machine.immediateBytes b ≤ 4 := by
  unfold Machine.immediateBytes
  split_ifs <;> decide

/-- Settles O15: four bytes are enough for any immediate, and whether the instruction is well formed
is read off the first byte. -/
theorem everyByteHasHandler : Obligations.EveryByteHasHandler := by
  refine ⟨decode_ne_noHandler, fun b rest hrest => ?_⟩
  obtain ⟨hshort, -⟩ | ⟨-, i, -, e⟩ := decode_cons_by_length b rest
  · have := immediateBytes_le b
    omega
  · obtain ⟨op, hop⟩ := opOfBits_isSome (opField b)
    have hdecode : decodeOp op (widthOfBits (sizeField b)) (relField b) rest =
        .ok (i, rest.drop (Machine.immediateBytes b)) := by
      simpa only [decode, hop] using e
    exact ⟨i, _, e, wellFormed_of_decodeOp hdecode ▸ mem_illegalBytes_iff b op hop⟩

/-- Settles O17: each line evaluates the decoder on the bytes written in the spec. -/
theorem specExamplesDecode : Obligations.SpecExamplesDecode :=
  ⟨rfl, rfl, rfl, rfl, rfl, rfl, rfl, rfl, rfl, rfl⟩

end Sys2Proof
end

section
/-! Stale slots (spec/10_state.md section 3): a computation that reads the stacks through the
primitives only cannot tell states with the same view apart. -/

namespace Sys2Proof.Machine

/-- A computation that treats states with the same view alike. -/
def Blind {α : Type} (x : State → Res α) : Prop :=
  ∀ s t, s.sameView t → Res.Alike (x s) (x t)

theorem Blind.andThen {α β : Type} {x : State → Res α} {k : α → State → Res β} (hx : Blind x)
    (hk : ∀ v, Blind (k v)) : Blind fun s => (x s).andThen k :=
  fun s t h => Res.alike_andThen (hx s t h) hk

theorem Blind.ite {α : Type} {p : Prop} [Decidable p] {x y : State → Res α} (hx : Blind x)
    (hy : Blind y) : Blind fun s => if p then x s else y s := by
  by_cases h : p
  · simpa only [if_pos h] using hx
  · simpa only [if_neg h] using hy

theorem Blind.ok {α : Type} (v : α) : Blind (Res.ok v) := fun _ _ h => ⟨rfl, h⟩

theorem Blind.raised {α : Type} (c : Cause) : Blind (Res.raised c : State → Res α) :=
  fun _ _ h => ⟨rfl, h⟩

theorem wPop_blind : Blind wPop := fun _ _ => wPop_alike
theorem rPop_blind : Blind rPop := fun _ _ => rPop_alike
theorem wPush_blind (v : Word) : Blind (wPush v) := fun _ _ => wPush_alike v
theorem halt_blind (v : Word) : Blind (halt v) := fun _ _ => halt_alike v
theorem putc_blind (v : Word) : Blind (putc v) := fun _ _ => putc_alike v
theorem setPc_blind (v : Word) : Blind (setPc v) := fun _ _ => setPc_alike v
theorem rPush_blind (v : Word) : Blind (rPush v) := fun _ _ => rPush_alike v

/-- An operand that the view determines keeps a computation blind. -/
theorem Blind.operand {α β : Type} {f : State → β} {k : β → State → Res α}
    (hf : ∀ s t, s.sameView t → f s = f t) (hk : ∀ v, Blind (k v)) : Blind fun s => k (f s) s :=
  fun s t h => by
    change Res.Alike (k (f s) s) (k (f t) t)
    rw [← hf s t h]
    exact hk _ s t h

theorem rPush_pc_blind : Blind fun s => rPush s.pc s :=
  .operand (fun _ _ ⟨_, _, _, hpc, _⟩ => hpc) rPush_blind

theorem setPc_target_blind (x : Word) (rel : Bool) : Blind fun s => setPc (target x rel s) s :=
  .operand (fun _ _ => target_sameView x rel) setPc_blind

theorem memRead_effAddr_blind (x : Word) (rel : Bool) (w : Width) :
    Blind fun s => memRead (effAddr x rel s) w s :=
  .operand (k := fun a => memRead a w) (fun _ _ => effAddr_sameView x rel)
    fun a _ _ => memRead_alike a w

theorem memWrite_effAddr_blind (x : Word) (rel : Bool) (w : Width) (v : Word) :
    Blind fun s => memWrite (effAddr x rel s) w v s :=
  .operand (k := fun a => memWrite a w v) (fun _ _ => effAddr_sameView x rel)
    fun a _ _ => memWrite_alike a w v

theorem needWidth_blind (size : Option Width) : Blind (needWidth size) := by
  cases size with
  | none => exact .raised _
  | some w => exact .ok w

theorem pushLiteral_blind (v : Word) (n : Nat) : Blind (pushLiteral v n) :=
  .andThen (wPush_blind v) fun _ _ _ h => ⟨rfl, advance_sameView n h⟩

theorem binary_blind (f : Word → Word → Word) : Blind (binary f) :=
  .andThen wPop_blind fun _ => .andThen wPop_blind fun _ => wPush_blind _

theorem signExtendTop_blind (size : Option Width) : Blind (signExtendTop size) :=
  .andThen wPop_blind fun b => by
    rcases size with _ | (_ | _ | _)
    · exact .raised _
    · exact .raised _
    · exact wPush_blind _
    · exact wPush_blind _

theorem loadForm_blind (size : Option Width) (rel : Bool) : Blind (loadForm size rel) :=
  .andThen wPop_blind fun x => .andThen (needWidth_blind size) fun w =>
    .andThen (memRead_effAddr_blind x rel w) wPush_blind

theorem storeForm_blind (size : Option Width) (rel : Bool) : Blind (storeForm size rel) :=
  .andThen wPop_blind fun x => .andThen wPop_blind fun a =>
    .andThen (needWidth_blind size) fun w => memWrite_effAddr_blind x rel w a

/-- Every instruction is the end of a blind computation. -/
theorem exec_blind (i : Instr) : ∃ x, Blind x ∧ ∀ s, exec i s = finish (x s) := by
  cases i with
  | nop => exact ⟨_, .ok (), fun _ => rfl⟩
  | litX => exact ⟨_, .raised _, fun _ => rfl⟩
  | litW | litB | litS => exact ⟨_, pushLiteral_blind _ _, fun _ => rfl⟩
  | dup =>
    exact ⟨_, .andThen wPop_blind fun _ => .andThen (wPush_blind _) fun _ => wPush_blind _,
      fun _ => rfl⟩
  | drop => exact ⟨_, .andThen wPop_blind fun _ => .ok (), fun _ => rfl⟩
  | swap =>
    exact ⟨_, .andThen wPop_blind fun _ => .andThen wPop_blind fun _ =>
      .andThen (wPush_blind _) fun _ => wPush_blind _, fun _ => rfl⟩
  | overOp =>
    exact ⟨_, .andThen wPop_blind fun _ => .andThen wPop_blind fun _ => .andThen (wPush_blind _)
      fun _ => .andThen (wPush_blind _) fun _ => wPush_blind _, fun _ => rfl⟩
  | rot =>
    exact ⟨_, .andThen wPop_blind fun _ => .andThen wPop_blind fun _ => .andThen wPop_blind fun _ =>
      .andThen (wPush_blind _) fun _ => .andThen (wPush_blind _) fun _ => wPush_blind _,
      fun _ => rfl⟩
  | nip =>
    exact ⟨_, .andThen wPop_blind fun _ => .andThen wPop_blind fun _ => wPush_blind _, fun _ => rfl⟩
  | wtr => exact ⟨_, .andThen wPop_blind rPush_blind, fun _ => rfl⟩
  | rtw => exact ⟨_, .andThen rPop_blind wPush_blind, fun _ => rfl⟩
  | call rel =>
    exact ⟨_, .andThen rPush_pc_blind fun _ => .andThen wPop_blind fun t =>
      setPc_target_blind t rel, fun _ => rfl⟩
  | ccall rel =>
    exact ⟨_, .andThen wPop_blind fun _ => .andThen wPop_blind fun t => .ite
      (.andThen rPush_pc_blind fun _ => setPc_target_blind t rel) (.ok ()), fun _ => rfl⟩
  | ret => exact ⟨_, .andThen rPop_blind setPc_blind, fun _ => rfl⟩
  | cret =>
    exact ⟨_, .andThen wPop_blind fun _ => .ite (.andThen rPop_blind setPc_blind) (.ok ()),
      fun _ => rfl⟩
  | jmp rel => exact ⟨_, .andThen wPop_blind fun t => setPc_target_blind t rel, fun _ => rfl⟩
  | cjmp rel =>
    exact ⟨_, .andThen wPop_blind fun _ => .andThen wPop_blind fun t => .ite
      (setPc_target_blind t rel) (.ok ()), fun _ => rfl⟩
  | eq | neq | lt | gt | and | or | xor | shift | add | sub | mul =>
    exact ⟨_, binary_blind _, fun _ => rfl⟩
  | divmod =>
    exact ⟨_, .andThen wPop_blind fun _ => .ite (.raised _) (.andThen wPop_blind fun _ =>
      .andThen (wPush_blind _) fun _ => wPush_blind _), fun _ => rfl⟩
  | fetchW | fetchB | fetchS | fetchX => exact ⟨_, loadForm_blind _ _, fun _ => rfl⟩
  | storeW | storeB | storeS | storeX => exact ⟨_, storeForm_blind _ _, fun _ => rfl⟩
  | sextW | sextB | sextS | sextX => exact ⟨_, signExtendTop_blind _, fun _ => rfl⟩
  | trap =>
    exact ⟨_, .andThen wPop_blind fun _ => .ite (.andThen wPop_blind halt_blind)
      (.ite (.andThen wPop_blind putc_blind) (.raised _)), fun _ => rfl⟩

/-- Two answers are next states with the same view. -/
def AlikeAnswers (o p : Answer) : Prop :=
  ∃ t t' : State, o = .next t ∧ p = .next t' ∧ t.sameView t'

theorem finish_alikeAnswers {x y : Res Unit} (h : Res.Alike x y) :
    AlikeAnswers (finish x) (finish y) := by
  cases x with
  | ok _ s => cases y with
    | ok _ t => exact ⟨s, t, rfl, rfl, h.2⟩
    | raised => exact h.elim
  | raised c s => cases y with
    | ok => exact h.elim
    | raised d t =>
      obtain ⟨rfl, h⟩ := h
      exact ⟨_, _, rfl, rfl, raise_sameView c h⟩

theorem exec_alikeAnswers (i : Instr) {s s' : State} (h : s.sameView s') :
    AlikeAnswers (exec i s) (exec i s') := by
  obtain ⟨x, blind, e⟩ := exec_blind i
  rw [e, e]
  exact finish_alikeAnswers (blind s s' h)

/-- The fetch reads memory at `pc`, both part of the view. -/
theorem fetchInstr_blind : Blind fetchInstr := fun s s' h => by
  have ⟨hmem, _, _, hpc, _⟩ := h
  have hbytes : fetchBytes s' = fetchBytes s := by rw [fetchBytes, fetchBytes, hmem, hpc]
  unfold fetchInstr
  rw [hbytes]
  split
  · exact ⟨rfl, advance_sameView 1 h⟩
  · exact ⟨rfl, h⟩
  · exact ⟨rfl, advance_sameView 1 h⟩
  · exact ⟨rfl, advance_sameView 1 h⟩

/-- Settles O33: the fetch is blind and every instruction is; a stopped core stays as it is. -/
theorem slotsAbovePointerUnobservable : Obligations.SlotsAbovePointerUnobservable := by
  intro s s' h
  have ⟨_, _, _, _, hrun, _⟩ := h
  change AlikeAnswers (step s) (step s')
  by_cases hr : s.runState = .running
  · have fetched := fetchInstr_blind s s' h
    simp only [step, ← hrun, hr]
    generalize fetchInstr s = x, fetchInstr s' = y at fetched ⊢
    cases x with
    | ok i t => cases y with
      | ok i' t' =>
        obtain ⟨rfl, ht⟩ := fetched
        exact exec_alikeAnswers i ht
      | raised => exact fetched.elim
    | raised c t => cases y with
      | ok => exact fetched.elim
      | raised d t' =>
        obtain ⟨rfl, ht⟩ := fetched
        exact ⟨_, _, rfl, rfl, raise_sameView c ht⟩
  · rw [step_stopped hr, step_stopped (hrun ▸ hr)]
    exact ⟨s, s', rfl, rfl, h⟩

end Sys2Proof.Machine
end

section
/-! From a computation to the shape of the next state it ends in: the forms of Laws/Forms.lean
answer a value or raise a cause with at most the working stack replaced. -/

namespace Sys2Proof.Machine

theorem leaves_of_ok {x : Res Unit} {s : State} {w : List Word}
    (h : ∃ st : Stack, st.words = w ∧ x = .ok () { s with wst := st }) :
    Leaves (finish x) s w s.pc := by
  obtain ⟨st, hw, rfl⟩ := h
  exact ⟨st, hw, rfl⟩

theorem faults_of_raised {x : Res Unit} {c : Cause} {s : State} {w : List Word}
    (h : ∃ st : Stack, st.words = w ∧ x = .raised c { s with wst := st }) :
    Faults (finish x) c s w := by
  obtain ⟨st, hw, rfl⟩ := h
  exact ⟨st, hw, rfl⟩

/-- A meaning that begins with a pop underflows on an empty stack. -/
theorem faults_of_nil {s : State} (k : Word → State → Res Unit) (h : s.wst.words = []) :
    Faults (finish ((wPop s).andThen k)) .wstUnderflow s [] :=
  faults_of_raised ⟨s.wst, h, wPop_then_nil k h⟩

/-- A meaning that begins with two pops underflows on fewer than two Words, which are gone. -/
theorem faults_of_short {s : State} (k : Word → Word → State → Res Unit)
    (h : s.wst.words.length < 2) :
    Faults (finish ((wPop s).andThen fun b s => (wPop s).andThen fun a s => k b a s))
      .wstUnderflow s [] :=
  faults_of_raised (wPop_wPop_short k h)

/-- One pop replaced by one push: there is always room. -/
theorem unary_of_cons {s : State} (f : Word → Word) {b : Word} {w : List Word}
    (h : s.wst.words = b :: w) :
    ∃ st : Stack, st.words = f b :: w ∧
      ((wPop s).andThen fun b s => wPush (f b) s) = .ok () { s with wst := st } := by
  obtain ⟨st₁, w₁, e₁⟩ := wPop_then (fun b s => wPush (f b) s) h
  obtain ⟨st₂, e₂, w₂⟩ := wPush_with_room (s := s) (f b) w₁ (Stack.length_le_of_words h)
  exact ⟨st₂, w₂, e₁.trans e₂⟩

/-- Two pushes, the first under the second. -/
theorem wPush_wPush_with_room {s : State} {st : Stack} (u v : Word) {w : List Word}
    (h : st.words = w) (hl : w.length + 1 < Config.stackWords) :
    ∃ st' : Stack, st'.words = v :: u :: w ∧
      ((wPush u { s with wst := st }).andThen fun _ s => wPush v s) =
        .ok () { s with wst := st' } := by
  obtain ⟨st₁, e₁, w₁⟩ := wPush_with_room (s := s) u h (Nat.lt_of_succ_lt hl)
  obtain ⟨st₂, e₂, w₂⟩ := wPush_with_room (s := s) v w₁ hl
  exact ⟨st₂, w₂, by rw [e₁, Res.andThen_ok, e₂]⟩

end Sys2Proof.Machine
end

section
/-! The stack instructions of spec/41_stack_ops.md that reorder, copy or remove Words: each pops all
its inputs before it pushes, so its pushes fit. -/

namespace Sys2Proof.Machine

theorem exec_swap_of_two {s : State} {a b : Word} {rest : List Word}
    (h : s.wst.words = b :: a :: rest) : Leaves (exec .swap s) s (a :: b :: rest) s.pc := by
  obtain ⟨st, w, e⟩ := wPop_wPop_then (fun b a s => (wPush b s).andThen fun _ s => wPush a s) h
  obtain ⟨st', w', e'⟩ := wPush_wPush_with_room (s := s) b a w (Stack.length_le_of_words h)
  exact leaves_of_ok ⟨st', w', e.trans e'⟩

/-- `over` on two Words: after its pops and first two pushes the Words are as before, and the third
push decides (R98). -/
theorem exec_over_of_two {s : State} {a b : Word} {rest : List Word}
    (h : s.wst.words = b :: a :: rest) :
    ∃ st : Stack, st.words = b :: a :: rest ∧
      exec .overOp s = finish (wPush a { s with wst := st }) := by
  obtain ⟨st, w, e⟩ := wPop_wPop_then (fun b a s => (wPush a s).andThen fun _ s =>
    (wPush b s).andThen fun _ s => wPush a s) h
  have hlen : rest.length + 1 < 256 := Stack.length_le_of_words h
  obtain ⟨st₁, e₁, w₁⟩ := wPush_with_room (s := s) a w (Nat.lt_of_succ_lt hlen)
  obtain ⟨st₂, e₂, w₂⟩ := wPush_with_room (s := s) b w₁ hlen
  exact ⟨st₂, w₂, congrArg finish (e.trans (by rw [e₁, Res.andThen_ok, e₂, Res.andThen_ok]))⟩

/-- Settles O37: `drop` is one pop; `nip` is the two-operand form that keeps its second operand. -/
theorem dropAndNipRemoveOneWord : Obligations.DropAndNipRemoveOneWord := fun _ =>
  ⟨fun _ _ h => leaves_of_ok (wPop_then (fun _ => .ok ()) h), faults_of_nil _,
    fun _ _ _ h => leaves_of_ok (binary_of_two (fun _ b => b) h), faults_of_short _⟩

/-- Settles O38: `exec_swap_of_two`, and the third push of `exec_over_of_two` selects the outcome.
-/
theorem swapAndOverOnTopTwo : Obligations.SwapAndOverOnTopTwo := by
  refine fun s => ⟨fun _ _ _ => exec_swap_of_two, fun a b rest h room => ?_, fun full => ?_,
    fun short => ⟨faults_of_short _ short, faults_of_short _ short⟩⟩
  · obtain ⟨st, w, e⟩ := exec_over_of_two h
    obtain ⟨st', e', w'⟩ := wPush_with_room (s := s) a w (h ▸ room)
    exact e ▸ leaves_of_ok ⟨st', w', e'⟩
  · match h : s.wst.words with
    | [] | [_] => simp [h] at full
    | b :: a :: rest =>
      obtain ⟨st, w, e⟩ := exec_over_of_two h
      have hfull : ¬ (b :: a :: rest).length < 256 := by rw [← h, full]; exact lt_irrefl _
      exact e ▸ faults_of_raised ⟨st, w, wPush_with_full a w hfull⟩

/-- `rot` on a Word: it is popped before the other two (R99). -/
theorem exec_rot_of_cons {s : State} {c : Word} {rest : List Word} (h : s.wst.words = c :: rest) :
    ∃ st : Stack, st.words = rest ∧ exec .rot s = finish
      ((wPop { s with wst := st }).andThen fun b s => (wPop s).andThen fun a s =>
        (wPush b s).andThen fun _ s => (wPush c s).andThen fun _ s => wPush a s) := by
  obtain ⟨st, w, e⟩ := wPop_then (fun c s => (wPop s).andThen fun b s => (wPop s).andThen fun a s =>
    (wPush b s).andThen fun _ s => (wPush c s).andThen fun _ s => wPush a s) h
  exact ⟨st, w, congrArg finish e⟩

/-- Settles O39: after the pop of `exec_rot_of_cons` two more pops select the outcome, and there is
room for the three pushes. -/
theorem rotRaisesThird : Obligations.RotRaisesThird := by
  refine fun s => ⟨fun a b c rest h => ?_, fun short => ?_⟩
  · obtain ⟨st, w, e⟩ := exec_rot_of_cons h
    obtain ⟨st₁, w₁, e₁⟩ := wPop_wPop_then (s := { s with wst := st }) (fun b a s =>
      (wPush b s).andThen fun _ s => (wPush c s).andThen fun _ s => wPush a s) w
    have hlen : rest.length + 2 < 256 := Stack.length_le_of_words h
    obtain ⟨st₂, e₂, w₂⟩ := wPush_with_room (s := s) b w₁ (show rest.length < 256 by omega)
    obtain ⟨st₃, w₃, e₃⟩ := wPush_wPush_with_room (s := s) c a w₂ hlen
    exact e ▸ leaves_of_ok ⟨st₃, w₃, e₁.trans (by rw [e₂, Res.andThen_ok]; exact e₃)⟩
  · match h : s.wst.words with
    | [] => exact faults_of_nil _ h
    | c :: rest =>
      rw [h, List.length_cons] at short
      obtain ⟨st, w, e⟩ := exec_rot_of_cons h
      exact e ▸ faults_of_raised (s := { s with wst := st })
        (wPop_wPop_short _ (show st.words.length < 2 by rw [w]; omega))

/-! ### The conditional return of spec/42_control_flow.md -/

/-- `cret` on a flag: it is popped, and if it is not 0 the rest is `ret` (R113). -/
theorem exec_cret_of_cons {s : State} {f : Word} {rest : List Word} (h : s.wst.words = f :: rest) :
    ∃ st : Stack, st.words = rest ∧ exec .cret s =
      if flagTrue f then exec .ret { s with wst := st } else .next { s with wst := st } := by
  obtain ⟨st, w, e⟩ := wPop_then
    (fun f s => if flagTrue f then (rPop s).andThen fun r s => setPc r s else .ok () s) h
  refine ⟨st, w, (congrArg finish e).trans ?_⟩
  cases flagTrue f <;> rfl

/-- Settles O46: after the pop of `exec_cret_of_cons` a flag that is not 0 leaves a `ret`, whose
outcomes are those of `retPopsIntoPc`. -/
theorem cretReturnsWhenFlagNotZero : Obligations.CretReturnsWhenFlagNotZero := by
  refine fun s => ⟨fun f rest r rrest h taken hr => ?_, fun f rest h taken hr => ?_,
    fun rest h => ?_, faults_of_nil _⟩
  · obtain ⟨ws, ww, e⟩ := exec_cret_of_cons h
    obtain ⟨rs, wr, e'⟩ := (retPopsIntoPc { s with wst := ws }).1 r rrest hr
    exact ⟨ws, rs, ww, wr, by rw [e, if_pos (flagTrue_of_ne taken), e']⟩
  · obtain ⟨ws, ww, e⟩ := exec_cret_of_cons h
    have underflow := (retPopsIntoPc { s with wst := ws }).2 hr
    exact ⟨ws, ww, by rw [e, if_pos (flagTrue_of_ne taken)]; exact underflow⟩
  · exact exec_cret_of_cons h

end Sys2Proof.Machine
end

section
/-! The literal, compare, logic, shift, arithmetic and sign-extension instructions of
spec/43_literal_alu.md: the Word each function of the ALU gives, as the spec says it. -/

namespace Sys2Proof.Machine

/-! ### Literals -/

theorem leaves_pushLiteral {s : State} (v : Word) (n : Nat) (room : s.wst.words.length < 256) :
    Leaves (finish (pushLiteral v n s)) s (v :: s.wst.words) (s.pc + BitVec.ofNat 32 n) := by
  obtain ⟨st, w, e⟩ := pushLiteral_of_room v n room
  exact ⟨st, w, by rw [e]; rfl⟩

theorem faultsAtOnce_pushLiteral {s : State} (v : Word) (n : Nat)
    (full : s.wst.words.length = 256) :
    FaultsAtOnce (finish (pushLiteral v n s)) .wstOverflow s := by
  rw [pushLiteral_of_full v n full.not_lt]
  rfl

/-- Settles O50: `pushLiteral` of the immediate, which `setWidth` extends with zeros. -/
theorem litZeroExtendsImmediate : Obligations.LitZeroExtendsImmediate := by
  refine ⟨fun imm s => ⟨leaves_pushLiteral imm 4, faultsAtOnce_pushLiteral imm 4⟩,
    fun imm s => ?_, fun imm s => ?_⟩ <;> rw [BitVec.ofNat_toNat]
  · exact ⟨leaves_pushLiteral _ 1, faultsAtOnce_pushLiteral _ 1⟩
  · exact ⟨leaves_pushLiteral _ 2, faultsAtOnce_pushLiteral _ 2⟩

/-! ### Two-operand instructions -/

/-- The two-operand form leaves the Word its function is known to give. -/
theorem leaves_binary {s : State} {f : Word → Word → Word} {a b v : Word} {rest : List Word}
    (hv : f a b = v) (h : s.wst.words = b :: a :: rest) :
    Leaves (finish (binary f s)) s (v :: rest) s.pc :=
  hv ▸ leaves_of_ok (binary_of_two f h)

theorem faults_binary {s : State} (f : Word → Word → Word) (short : s.wst.words.length < 2) :
    Faults (finish (binary f s)) .wstUnderflow s [] :=
  faults_of_raised (binary_of_short f short)

theorem flagWord_decide (p : Prop) [Decidable p] : flagWord (decide p) = if p then 1 else 0 := by
  by_cases h : p <;> simp [flagWord, h]

theorem aluEq_eq (a b : Word) : aluEq a b = if a.toNat = b.toNat then 1 else 0 := by
  simp only [aluEq, ← flagWord_decide, beq_eq_decide, BitVec.toNat_inj]

theorem aluNeq_eq (a b : Word) : aluNeq a b = if a.toNat ≠ b.toNat then 1 else 0 := by
  simp only [aluNeq, ← flagWord_decide, bne, beq_eq_decide, ne_eq, decide_not, BitVec.toNat_inj]

theorem aluLt_eq (a b : Word) : aluLt a b = if a.toNat < b.toNat then 1 else 0 :=
  flagWord_decide _

/-- Settles O51: the four flags are the comparisons of the operands as numbers. -/
theorem comparisonsPushOneOrZero : Obligations.ComparisonsPushOneOrZero := by
  refine fun s => ⟨fun a b rest h => ⟨leaves_binary (aluEq_eq a b) h,
    leaves_binary (aluNeq_eq a b) h, leaves_binary (aluLt_eq a b) h,
    leaves_binary (aluLt_eq b a) h⟩, fun short i hi => ?_⟩
  fin_cases hi <;> exact faults_binary _ short

/-- Settles O52: the bits of the three results. -/
theorem logicIsBitwise : Obligations.LogicIsBitwise := by
  refine fun s => ⟨fun a b rest h => ⟨a &&& b, a ||| b, a ^^^ b, fun k _ =>
    ⟨BitVec.getLsbD_and, BitVec.getLsbD_or, BitVec.getLsbD_xor⟩, leaves_binary rfl h,
    leaves_binary rfl h, leaves_binary rfl h⟩, fun short i hi => ?_⟩
  fin_cases hi <;> exact faults_binary _ short

theorem shiftLeft_eq_ofNat (a : Word) (n : Nat) : a <<< n = BitVec.ofNat 32 (a.toNat * 2 ^ n) := by
  apply BitVec.eq_of_toNat_eq
  rw [BitVec.toNat_shiftLeft, Nat.shiftLeft_eq, BitVec.toNat_ofNat]

theorem ushiftRight_eq_ofNat (a : Word) (n : Nat) :
    a >>> n = BitVec.ofNat 32 (a.toNat / 2 ^ n) := by
  rw [← Nat.shiftRight_eq_div_pow, ← BitVec.toNat_ushiftRight, BitVec.ofNat_toNat,
    BitVec.setWidth_eq]

/-- A shift as a multiplication or a division by a power of two (R138). -/
theorem aluShift_eq (a sb : Word) : aluShift a sb =
    if 0 ≤ sb.toInt then
      (if 32 ≤ sb.toInt then 0 else BitVec.ofNat 32 (a.toNat * 2 ^ sb.toInt.toNat))
    else
      (if 32 ≤ -sb.toInt then 0 else BitVec.ofNat 32 (a.toNat / 2 ^ (-sb.toInt).toNat)) := by
  have magnitude : ∀ n : Int, 32 ≤ n.toNat ↔ 32 ≤ n := fun n => by omega
  simp only [aluShift, magnitude, shiftLeft_eq_ofNat, ushiftRight_eq_ofNat]

/-- Settles O53: `aluShift_eq`. -/
theorem shiftIsLogicalBySignedAmount : Obligations.ShiftIsLogicalBySignedAmount := fun _ =>
  ⟨fun a sb _ => leaves_binary (aluShift_eq a sb), faults_binary _⟩

/-- Settles O54: sum and product of Words are those of the numbers modulo `2 ^ 32`. -/
theorem addAndMulWrapSilently : Obligations.AddAndMulWrapSilently := by
  refine fun s => ⟨fun a b rest h => ⟨leaves_binary ?_ h, leaves_binary ?_ h⟩, fun short i hi => ?_⟩
  · exact BitVec.eq_of_toNat_eq (by rw [aluAdd, BitVec.toNat_add, BitVec.toNat_ofNat])
  · exact BitVec.eq_of_toNat_eq (by rw [aluMul, BitVec.toNat_mul, BitVec.toNat_ofNat])
  · fin_cases hi <;> exact faults_binary _ short

theorem aluSub_eq (a b : Word) :
    aluSub a b = BitVec.ofInt 32 ((a.toNat : Int) - (b.toNat : Int)) := by
  apply BitVec.eq_of_toNat_eq
  have := a.isLt
  have := b.isLt
  rw [aluSub, BitVec.toNat_sub, BitVec.toNat_ofInt]
  omega

/-- Settles O55: `aluSub_eq`. -/
theorem subSubtractsTopFromSecond : Obligations.SubSubtractsTopFromSecond := fun _ =>
  ⟨fun a b _ => leaves_binary (aluSub_eq a b), faults_binary _⟩

/-! ### Division -/

/-- `divmod` on a divisor: it is popped before it is compared with 0 (R142). -/
theorem exec_divmod_of_cons {s : State} {b : Word} {rest : List Word}
    (h : s.wst.words = b :: rest) :
    ∃ st : Stack, st.words = rest ∧ exec .divmod s = finish
      (if b = 0 then .raised .divByZero { s with wst := st } else
        (wPop { s with wst := st }).andThen fun a s =>
          (wPush (aluRem a b) s).andThen fun _ s => wPush (aluQuot a b) s) := by
  obtain ⟨st, w, e⟩ := wPop_then (fun b s => if b = 0 then .raised .divByZero s else
    (wPop s).andThen fun a s => (wPush (aluRem a b) s).andThen fun _ s => wPush (aluQuot a b) s) h
  exact ⟨st, w, congrArg finish e⟩

/-- Settles O56: a divisor of 0 ends the instruction after the first pop; otherwise the second pop
selects the outcome, and quotient and remainder are those of the numbers. -/
theorem divmodLeavesRemainderAndQuotient : Obligations.DivmodLeavesRemainderAndQuotient := by
  refine fun s => ⟨fun a b rest h hb => ⟨a / b, a % b, ?_, ?_, ?_⟩, fun rest h => ?_,
    fun b h hb => ?_, faults_of_nil _⟩
  · rw [BitVec.toNat_udiv, BitVec.toNat_umod, Nat.div_add_mod']
  · rw [BitVec.toNat_umod]
    exact Nat.mod_lt _ (Nat.pos_of_ne_zero fun h0 => hb (BitVec.eq_of_toNat_eq h0))
  · obtain ⟨st, w, e⟩ := exec_divmod_of_cons h
    obtain ⟨st₁, w₁, e₁⟩ := wPop_then (s := { s with wst := st }) (fun a s =>
      (wPush (aluRem a b) s).andThen fun _ s => wPush (aluQuot a b) s) w
    obtain ⟨st₂, w₂, e₂⟩ := wPush_wPush_with_room (s := s) (aluRem a b) (aluQuot a b) w₁
      (Stack.length_le_of_words h)
    exact e ▸ leaves_of_ok ⟨st₂, w₂, (if_neg hb).trans (e₁.trans e₂)⟩
  · obtain ⟨st, w, e⟩ := exec_divmod_of_cons h
    exact e ▸ faults_of_raised ⟨st, w, if_pos rfl⟩
  · obtain ⟨st, w, e⟩ := exec_divmod_of_cons h
    exact e ▸ faults_of_raised ⟨st, w, (if_neg hb).trans (wPop_then_nil _ w)⟩

/-! ### Sign extension -/

theorem aluSextByte_eq (b : Word) : aluSextByte b =
    BitVec.ofInt 32 (if b.toNat % 256 < 128 then ((b.toNat % 256 : Nat) : Int)
      else ((b.toNat % 256 : Nat) : Int) - 256) := by
  have hbyte : (byteAt b 0).toNat = b.toNat % 256 := by
    rw [byteAt_eq_div, BitVec.toNat_ofNat, pow_zero, Nat.div_one]
  rw [aluSextByte, BitVec.signExtend, BitVec.toInt_eq_toNat_cond, hbyte]
  congr 1
  split_ifs <;> omega

theorem aluSextShort_eq (b : Word) : aluSextShort b =
    BitVec.ofInt 32 (if b.toNat % 65536 < 32768 then ((b.toNat % 65536 : Nat) : Int)
      else ((b.toNat % 65536 : Nat) : Int) - 65536) := by
  have hshort : (joinShort (byteAt b 0) (byteAt b 1)).toNat = b.toNat % 65536 := by
    simp only [joinShort_toNat, byteAt_eq_div, BitVec.toNat_ofNat]
    omega
  rw [aluSextShort, BitVec.signExtend, BitVec.toInt_eq_toNat_cond, hshort]
  congr 1
  split_ifs <;> omega

/-- Settles O57: the legal forms replace the top Word; the illegal ones raise after the pop. -/
theorem sextExtendsSignBit : Obligations.SextExtendsSignBit := by
  refine fun s => ⟨fun b rest h => ⟨?_, ?_, ?_, ?_⟩, fun h i hi => ?_⟩
  · rw [← aluSextByte_eq]
    exact leaves_of_ok (unary_of_cons aluSextByte h)
  · rw [← aluSextShort_eq]
    exact leaves_of_ok (unary_of_cons aluSextShort h)
  · exact faults_of_raised (wPop_then (fun _ s => raiseInvalid s) h)
  · exact faults_of_raised (wPop_then (fun _ s => raiseInvalid s) h)
  · fin_cases hi <;> exact faults_of_nil _ h

end Sys2Proof.Machine
end

section
/-! The memory instructions of spec/44_memory_access.md and `trap` of spec/45_trap.md. -/

namespace Sys2Proof.Machine

/-! ### The operands -/

/-- Settles O42: addition of Words is addition modulo `2 ^ 32`. -/
theorem relativeAddsPcModuloWord : Obligations.RelativeAddsPcModuloWord := fun x s =>
  ⟨rfl, BitVec.toNat_add s.pc x, rfl, BitVec.toNat_add x s.pc⟩

/-! ### `fetch` and `store` -/

theorem exec_fetchOfSize (size : Option Width) (rel : Bool) (s : State) :
    exec (fetchOfSize size rel) s = finish (loadForm size rel s) := by
  rcases size with _ | (_ | _ | _) <;> rfl

theorem exec_storeOfSize (size : Option Width) (rel : Bool) (s : State) :
    exec (storeOfSize size rel) s = finish (storeForm size rel s) := by
  rcases size with _ | (_ | _ | _) <;> rfl

/-- The two outcomes of a `fetch` of a width that has its address (R160). -/
theorem fetch_of_cons {s : State} (rel : Bool) {x : Word} {rest : List Word}
    (h : s.wst.words = x :: rest) (w : Width) :
    ((effAddr x rel s).toNat + w.bytes ≤ 65536 →
      Leaves (exec (fetchOfSize (some w) rel) s) s
        (BitVec.ofNat 32 (littleEndian s.mem (effAddr x rel s).toNat w.bytes) :: rest) s.pc) ∧
    (65536 < (effAddr x rel s).toNat + w.bytes →
      Faults (exec (fetchOfSize (some w) rel) s) .memoryAccessError s rest) := by
  obtain ⟨outside, inside⟩ := loadForm_some w rel h
  rw [exec_fetchOfSize, ← Memory.readWidth_toNat, BitVec.ofNat_toNat, BitVec.setWidth_eq]
  exact ⟨fun hb => leaves_of_ok (inside hb), fun hb => faults_of_raised (outside hb)⟩

/-- The two outcomes of a `store` of a width that has its Words (R161). -/
theorem store_of_two {s : State} (rel : Bool) {x a : Word} {rest : List Word}
    (h : s.wst.words = x :: a :: rest) (w : Width) :
    ((effAddr x rel s).toNat + w.bytes ≤ 65536 →
      ∃ (st : Stack) (m : Memory), st.words = rest ∧
        exec (storeOfSize (some w) rel) s = .next { s with wst := st, mem := m } ∧
        WrittenAt s.mem m (effAddr x rel s).toNat w.bytes a) ∧
    (65536 < (effAddr x rel s).toNat + w.bytes →
      Faults (exec (storeOfSize (some w) rel) s) .memoryAccessError s rest) := by
  obtain ⟨st, hw, outside, inside⟩ := storeForm_some w rel h
  rw [exec_storeOfSize]
  exact ⟨fun hb => ⟨st, _, hw, congrArg finish (inside hb), Memory.writtenAt_writeWidth _ _ _ _⟩,
    fun hb => faults_of_raised ⟨st, hw, outside hb⟩⟩

/-- Settles O58: `fetch_of_cons` at each width, and `loadForm` of size `11` and without an address.
-/
theorem fetchLoadsZeroExtended : Obligations.FetchLoadsZeroExtended := by
  refine fun rel s => ⟨fun x rest h => ⟨fun p hp => ?_, faults_of_raised (loadForm_none rel h)⟩,
    fun h i hi => ?_⟩
  · fin_cases hp
    exacts [fetch_of_cons rel h .word, fetch_of_cons rel h .byte, fetch_of_cons rel h .short]
  · fin_cases hi <;> exact faults_of_nil _ h

/-- Settles O59: `store_of_two` at each width, and `storeForm` of size `11` and on too few Words. -/
theorem storeWritesLowBytes : Obligations.StoreWritesLowBytes := by
  refine fun rel s => ⟨fun x a rest h => ⟨fun p hp => ?_, faults_of_raised (storeForm_none rel h)⟩,
    fun short i hi => ?_⟩
  · fin_cases hp
    exacts [store_of_two rel h .word, store_of_two rel h .byte, store_of_two rel h .short]
  · fin_cases hi <;> exact faults_of_short _ short

/-- Settles O16: `lit.x` raises at once, and the other forms are those of `sextExtendsSignBit`,
`fetchLoadsZeroExtended` and `storeWritesLowBytes`. -/
theorem illegalFormsRaiseAfterPops : Obligations.IllegalFormsRaiseAfterPops := by
  refine fun s => ⟨rfl, fun rel i hi => ⟨fun h => ?_, fun x rest h => ?_⟩, fun rel =>
    ⟨faults_of_short _, fun x a rest h => ((storeWritesLowBytes rel s).1 x a rest h).2⟩⟩
  · fin_cases hi <;> exact faults_of_nil _ h
  · obtain ⟨-, -, sextW, sextX⟩ := (sextExtendsSignBit s).1 x rest h
    fin_cases hi
    exacts [sextW, sextX, ((fetchLoadsZeroExtended rel s).1 x rest h).2]

/-! ### `trap` -/

/-- `trap` on a selector: it is popped before it is compared (R170). -/
theorem exec_trap_of_cons {s : State} {sel : Word} {rest : List Word}
    (h : s.wst.words = sel :: rest) :
    ∃ st : Stack, st.words = rest ∧ exec .trap s = finish
      (if sel = 0 then (wPop { s with wst := st }).andThen fun status s => halt status s
        else if sel = 1 then (wPop { s with wst := st }).andThen fun ch s => putc ch s
        else .raised .invalidTrap { s with wst := st }) := by
  obtain ⟨st, w, e⟩ := wPop_then (fun sel s =>
    if sel = 0 then (wPop s).andThen fun status s => halt status s
    else if sel = 1 then (wPop s).andThen fun ch s => putc ch s
    else .raised .invalidTrap s) h
  exact ⟨st, w, congrArg finish e⟩

/-- Settles O60: the selector of `exec_trap_of_cons` selects the service, and the pop of its
argument the outcome. -/
theorem trapServesTwoSelectors : Obligations.TrapServesTwoSelectors := by
  refine fun s => ⟨fun status rest h => ?_, fun ch rest h => ?_, fun sel rest h h0 h1 => ?_,
    fun sel h hsel => ?_, faults_of_nil _⟩
  · obtain ⟨st, w, e⟩ := exec_trap_of_cons h
    obtain ⟨st', e', w'⟩ := wPop_with_cons (s := s) w
    exact ⟨st', w', by rw [e, if_pos rfl, e']; rfl⟩
  · obtain ⟨st, w, e⟩ := exec_trap_of_cons h
    obtain ⟨st', e', w'⟩ := wPop_with_cons (s := s) w
    exact ⟨st', w', by rw [e, if_neg (by decide), if_pos rfl, e']; rfl⟩
  · obtain ⟨st, w, e⟩ := exec_trap_of_cons h
    exact ⟨st, w, by rw [e, if_neg h0, if_neg h1]; rfl⟩
  · obtain ⟨st, w, e⟩ := exec_trap_of_cons h
    rcases hsel with rfl | rfl <;> exact ⟨st, w, by rw [e, wPop_with_nil w]; rfl⟩

end Sys2Proof.Machine
end

section
/-! The memory of spec/20_memory.md after a load and after a store: what a read of any width and the
next fetch find there. -/

namespace Sys2Proof.Machine

/-! ### Load -/

/-- Settles O2: `launch_of_le` gives the state, `Memory.read_placeBytes` its bytes. -/
theorem loadPlacesImage : Obligations.LoadPlacesImage := by
  intro image fits
  have bytes : ∀ a, Memory.read (State.reset.mem.placeBytes 0 image) a = image[a]?.getD 0 :=
    fun a => by
      rw [Memory.read_placeBytes _ _ _ _ (by rwa [Nat.zero_add]), if_pos (Nat.zero_le a)]
      rfl
  refine ⟨_, launch_of_le fits, fun k hk => ?_, fun a ha => ?_⟩
  · rw [bytes, List.getElem?_eq_getElem hk, Option.getD_some]
  · rw [bytes, List.getElem?_eq_none ha, Option.getD_none]

/-- Settles O1: the values are those of `State.reset`; the bytes after the image are those of
`loadPlacesImage`. -/
theorem resetZeroesState : Obligations.ResetZeroesState := by
  refine ⟨fun _ => rfl, fun k => ⟨Vector.getElem_replicate k.isLt, Vector.getElem_replicate k.isLt⟩,
    rfl, rfl, rfl, rfl, rfl, rfl, rfl, rfl, rfl, fun image a fits ha => ?_⟩
  obtain ⟨m, e, -, uncovered⟩ := loadPlacesImage image fits
  exact ⟨_, e, uncovered a ha⟩

/-! ### Reads after a write -/

/-- Any bytes of a written value, read as a number, are that slice of the value. -/
theorem littleEndian_of_writtenAt {m m' : Memory} {a n : Nat} {v : Word} (h : WrittenAt m m' a n v)
    (k j : Nat) (hkj : k + j ≤ n) : littleEndian m' (a + k) j = v.toNat / 256 ^ k % 256 ^ j := by
  induction j generalizing k with
  | zero => rw [pow_zero, Nat.mod_one]; rfl
  | succ j ih =>
    have hbyte : (Memory.read m' (a + k)).toNat = v.toNat / 256 ^ k % 256 := by
      rw [h, if_pos (by omega), Nat.add_sub_cancel_left, BitVec.toNat_ofNat]
    rw [littleEndian, hbyte, Nat.add_assoc, ih (k + 1) (by omega), pow_succ,
      ← Nat.div_div_eq_div_mul, pow_succ', Nat.mod_mul]

/-- A read inside a written value gives its slice of the value. -/
theorem memRead_of_writtenAt {m : Memory} {t : State} {addr v : Word} {n : Nat}
    (h : WrittenAt m t.mem addr.toNat n v) (hn : addr.toNat + n ≤ 65536) (w : Width) (k : Nat)
    (hk : k + w.bytes ≤ n) :
    memRead (addr + BitVec.ofNat 32 k) w t =
      .ok (BitVec.ofNat 32 (v.toNat / 256 ^ k % 256 ^ w.bytes)) t := by
  have haddr : (addr + BitVec.ofNat 32 k).toNat = addr.toNat + k := by
    rw [BitVec.toNat_add, BitVec.toNat_ofNat]
    omega
  have inside : addr.toNat + k + w.bytes ≤ Config.memBytes := by
    rw [show Config.memBytes = 65536 from rfl]
    omega
  rw [memRead_of_inside _ (haddr ▸ inside), haddr, ← littleEndian_of_writtenAt h k _ hk,
    ← Memory.readWidth_toNat, BitVec.ofNat_toNat, BitVec.setWidth_eq]

/-- Settles O8: `memRead_of_writtenAt` at each width, a byte being 8 bits. -/
theorem narrowReadsSeeBytesOfWord : Obligations.NarrowReadsSeeBytesOfWord := by
  intro addr v s hb
  refine ⟨_, memWrite_of_inside (w := .word) v s hb, fun k hk => ?_, fun k hk => ?_⟩ <;>
    rw [pow_mul]
  · exact memRead_of_writtenAt (Memory.writtenAt_writeWidth _ _ _ .word) hb .byte k hk
  · exact memRead_of_writtenAt (Memory.writtenAt_writeWidth _ _ _ .word) hb .short k
      (Nat.succ_le_succ hk)

/-- A `fetch` after a `store` of the same width at the same address. -/
theorem fetch_after_store {rel : Bool} {s : State} {x a : Word} {rest : List Word}
    (h : s.wst.words = x :: a :: rest) (w : Width)
    (hb : (effAddr x rel s).toNat + w.bytes ≤ 65536) :
    ∃ t : State, exec (storeOfSize (some w) rel) s = .next t ∧
      ∀ (u : State) (y : Word) (rest' : List Word), u.mem = t.mem →
        u.wst.words = y :: rest' → effAddr y rel u = effAddr x rel s →
        Leaves (exec (fetchOfSize (some w) rel) u) u
          (BitVec.ofNat 32 (a.toNat % 256 ^ w.bytes) :: rest') u.pc := by
  obtain ⟨st, m, -, e, written⟩ := (store_of_two rel h w).1 hb
  refine ⟨_, e, fun u y rest' hmem hy haddr => ?_⟩
  have value := littleEndian_of_writtenAt written 0 w.bytes (Nat.zero_add _).le
  have fetched := (fetch_of_cons rel hy w).1 (haddr ▸ hb)
  rw [haddr, hmem] at fetched
  rw [Nat.add_zero, pow_zero, Nat.div_one] at value
  exact value ▸ fetched

/-- Settles O9: `fetch_after_store` at each width. -/
theorem fetchReturnsStoredBytes : Obligations.FetchReturnsStoredBytes := by
  intro rel s x a rest h p hp
  fin_cases hp
  exacts [fetch_after_store h .word, fetch_after_store h .byte, fetch_after_store h .short]

end Sys2Proof.Machine
end

section
/-! The step of spec/40_execution_cycle.md: what the fetch reads, which instruction the step
executes, and that step grants add up. -/

namespace Sys2Proof.Machine

/-! ### The bytes the fetch reads -/

theorem Memory.bytesFrom_succ (m : Memory) {a : Nat} (n : Nat) (h : a < 65536) :
    Memory.bytesFrom m a (n + 1) = Memory.read m a :: Memory.bytesFrom m (a + 1) n := if_pos h

theorem Memory.bytesFrom_length (m : Memory) (a n : Nat) :
    (Memory.bytesFrom m a n).length = min n (Config.memBytes - a) := by
  induction n generalizing a with
  | zero => rw [Nat.zero_min]; rfl
  | succ n ih =>
    rw [Memory.bytesFrom]
    split_ifs with h
    · rw [List.length_cons, ih]
      omega
    · rw [List.length_nil]
      omega

/-- Memories that agree from an address on give the same bytes from there. -/
theorem Memory.bytesFrom_congr {m m' : Memory} {a : Nat} (n : Nat)
    (h : ∀ b, a ≤ b → Memory.read m b = Memory.read m' b) :
    Memory.bytesFrom m a n = Memory.bytesFrom m' a n :=
  List.ext_getElem? fun k => by
    rw [Memory.bytesFrom_getElem?, Memory.bytesFrom_getElem?, h _ (Nat.le_add_right a k)]

theorem encode_length_le (i : Instr) : (encode i).length ≤ Config.maxLength := by
  change _ ≤ 5
  cases i <;> simp [encode]

/-- Where the encoding of an instruction lies in memory at `pc`, the fetch reads it. -/
theorem decode_fetchBytes_of_encoded {s : State} {i : Instr}
    (inside : s.pc.toNat + (encode i).length ≤ Config.memBytes)
    (h : ∀ k (hk : k < (encode i).length), s.mem.read (s.pc.toNat + k) = (encode i)[k]) :
    ∃ tail, decode (fetchBytes s) = .ok (i, tail) := by
  have hlen := encode_length_le i
  have htake : (fetchBytes s).take (encode i).length = encode i := by
    refine List.ext_getElem? fun k => ?_
    rw [List.getElem?_take, fetchBytes, Memory.bytesFrom_getElem?]
    split_ifs with hk hb
    · rw [h k hk, List.getElem?_eq_getElem hk]
    · omega
    · exact (List.getElem?_eq_none (not_lt.1 hk)).symm
  refine ⟨(fetchBytes s).drop (encode i).length, ?_⟩
  rw [← decodeInvertsEncode i, ← congrArg (· ++ _) htake, List.take_append_drop]

/-! ### The instruction the step executes -/

/-- Settles O18: the fetch answers the decoded instruction. -/
theorem stepRunsDecodedInstruction : Obligations.StepRunsDecodedInstruction :=
  fun s i tail hr hd => by
    have e : step s = exec i (advance 1 s) := by simp only [step, hr, fetchInstr, hd]
    exact e

/-- Settles O19: the bytes in memory decode to the instruction. -/
theorem stepRunsInstructionInMemory : Obligations.StepRunsInstructionInMemory := by
  intro s i hr inside h
  obtain ⟨tail, hd⟩ := decode_fetchBytes_of_encoded inside h
  exact stepRunsDecodedInstruction s i tail hr hd

/-- A `lit` whose immediate is cut short faults with `pc` after the instruction byte (R130). -/
theorem step_of_cutShort {s : State} (hr : s.runState = .running)
    (hd : decode (fetchBytes s) = .error .immediateCutShort) :
    step s = .next (raise .memoryAccessError (advance 1 s)) := by
  simp only [step, hr, fetchInstr, hd]

/-- Settles O20: the cases of the fetch. -/
theorem fetchIsBoundsChecked : Obligations.FetchIsBoundsChecked := by
  intro s hr
  obtain ⟨hpc, -⟩ | ⟨hpc, ⟨i, tail, hd, e⟩ | ⟨hd, -⟩⟩ := fetchInstr_cases s
  · obtain ⟨-, e⟩ | ⟨hlt, -⟩ := step_running_cases hr
    · exact ⟨fun _ => e, fun hlt => absurd hpc (not_le.2 hlt)⟩
    · exact absurd hpc (not_le.2 hlt)
  · exact ⟨fun hge => absurd hpc (not_lt.2 hge), fun _ => .inl ⟨i, tail, hd, e⟩⟩
  · exact ⟨fun hge => absurd hpc (not_lt.2 hge), fun _ => .inr ⟨hd, step_of_cutShort hr hd⟩⟩

/-- Settles O21: a stopped core executes nothing. -/
theorem stoppedCoreIgnoresStep : Obligations.StoppedCoreIgnoresStep := fun _ => step_stopped

/-- Settles O35: a zero byte at `pc` decodes to `nop`, whatever follows it. -/
theorem nopOnlyAdvancesPc : Obligations.NopOnlyAdvancesPc := by
  refine ⟨fun _ => rfl, fun s hr hpc hzero => ?_⟩
  have hd : decode (fetchBytes s) = .ok (.nop, s.mem.bytesFrom (s.pc.toNat + 1) 4) := by
    rw [fetchBytes_of_lt hpc, hzero]
    rfl
  exact stepRunsDecodedInstruction s .nop _ hr hd

/-- Settles O10: the store changes the byte at `pc` and none after it, so the next fetch reads the
stored byte before the bytes that were there. -/
theorem storeIsSeenByNextFetch : Obligations.StoreIsSeenByNextFetch := by
  intro s x a rest i tail hr h hx hlt hd
  obtain ⟨st, m, -, e, written⟩ := (store_of_two false h .byte).1 hlt
  change WrittenAt s.mem m x.toNat 1 a at written
  have hbyte : m.read x.toNat = BitVec.ofNat 8 a.toNat := by
    rw [written, if_pos ⟨le_rfl, Nat.lt_succ_self _⟩, Nat.sub_self, pow_zero, Nat.div_one]
  have hafter : m.bytesFrom (x.toNat + 1) 4 = s.mem.bytesFrom (x.toNat + 1) 4 :=
    Memory.bytesFrom_congr 4 fun b hb => (written b).trans (if_neg fun hin => hin.2.not_ge hb)
  refine ⟨_, e, stepRunsDecodedInstruction _ i tail hr ?_⟩
  rw [fetchBytes_of_lt (hx ▸ hlt)]
  change decode (m.read s.pc.toNat :: m.bytesFrom (s.pc.toNat + 1) 4) = _
  rw [← hx, hbyte, hafter, hd]

/-! ### `lit` in memory -/

/-- Where the immediate lies in memory, `lit` is the push of the value a read of its width gives. -/
theorem decodeLit_bytesFrom (m : Memory) {a : Nat} (w : Width) (h : a + w.bytes ≤ 65536) :
    ∃ i tail, decodeLit (some w) (m.bytesFrom a 4) = .ok (i, tail) ∧
      ∀ s, exec i s = finish (pushLiteral (m.readWidth a w) w.bytes s) := by
  cases w with
  | word =>
    change a + 4 ≤ 65536 at h
    rw [Memory.bytesFrom_succ m 3 (a := a) (by omega), Memory.bytesFrom_succ m 2 (by omega),
      Memory.bytesFrom_succ m 1 (by omega), Memory.bytesFrom_succ m 0 (by omega)]
    exact ⟨_, _, rfl, fun _ => rfl⟩
  | byte =>
    rw [Memory.bytesFrom_succ m 3 h]
    exact ⟨_, _, rfl, fun _ => rfl⟩
  | short =>
    rw [Memory.bytesFrom_succ m 3 (Nat.lt_of_succ_lt h), Memory.bytesFrom_succ m 2 h]
    exact ⟨_, _, rfl, fun _ => rfl⟩

theorem decode_lit {b : Byte} {w : Width} (hop : opOfBits (opField b) = some .lit)
    (hw : widthOfBits (sizeField b) = some w) (rest : List Byte) :
    decode (b :: rest) = decodeLit (some w) rest := by
  simp only [decode, hop, decodeOp, hw]

/-- Settles O49: the immediate is cut short exactly when it ends past the memory; otherwise
`decodeLit_bytesFrom` leaves a literal push, and the room for it selects the outcome. -/
theorem litPushesImmediateFromMemory : Obligations.LitPushesImmediateFromMemory := by
  refine ⟨fun s w hr hpc hop hw => ?_, fun b rest rest' hop => ?_⟩
  · have hbytes := (congrArg decode (fetchBytes_of_lt hpc)).trans (decode_lit hop hw _)
    have pushes (inside : s.pc.toNat + 1 + w.bytes ≤ 65536) :
        step s = finish (pushLiteral (s.mem.readWidth (s.pc.toNat + 1) w) w.bytes
          { s with pc := s.pc + 1 }) := by
      obtain ⟨i, tail, hd, e⟩ := decodeLit_bytesFrom s.mem w inside
      rw [stepRunsDecodedInstruction s i tail hr (hbytes.trans hd), e]
    refine ⟨fun outside => ?_, fun inside full => ?_, fun inside room => ?_⟩
    · obtain ⟨-, hd⟩ | ⟨hlen, -⟩ :=
        decodeLit_cases (some w) (s.mem.bytesFrom (s.pc.toNat + 1) 4)
      · exact step_of_cutShort hr (hbytes.trans hd)
      · rw [Memory.bytesFrom_length] at hlen
        have : litBytes (some w) = w.bytes := rfl
        have : Config.memBytes = 65536 := rfl
        omega
    · rw [pushes inside]
      exact faultsAtOnce_pushLiteral _ _ full
    · have value := BitVec.ofNat_toNat 32 (s.mem.readWidth (s.pc.toNat + 1) w)
      rw [Memory.readWidth_toNat, BitVec.setWidth_eq] at value
      have past : s.pc + 1 + BitVec.ofNat 32 w.bytes =
          BitVec.ofNat 32 (s.pc.toNat + 1 + w.bytes) := by
        rw [BitVec.ofNat_add, BitVec.ofNat_add, BitVec.ofNat_toNat, BitVec.setWidth_eq]
        rfl
      rw [pushes inside, value, ← past]
      exact leaves_pushLiteral (s := { s with pc := s.pc + 1 }) _ _ room
  · obtain ⟨hlit, -⟩ | ⟨-, i, -, e⟩ := decode_cons_cases b
    · exact absurd ((opOfBits_lit _).2 hlit) hop
    · exact ⟨i, e rest, e rest'⟩

/-! ### Step grants -/

theorem execBudget_stopped (n : Nat) {s : State} (hr : s.runState ≠ .running) :
    execBudget n s = .next s := by
  cases n with
  | zero => rfl
  | succ n => cases h : s.runState with
    | running => exact absurd h hr
    | halted | faulted => simp only [execBudget, h]

/-- A budget begins with a step, in a stopped core with one that changes nothing (R80, R81). -/
theorem execBudget_succ (n : Nat) {s t : State} (e : step s = .next t) :
    execBudget (n + 1) s = execBudget n t := by
  by_cases hr : s.runState = .running
  · simp only [execBudget, hr, e]
  · obtain rfl : s = t := Host.Outcome.next.inj ((step_stopped hr).symm.trans e)
    rw [execBudget_stopped _ hr, execBudget_stopped _ hr]

theorem execBudget_add (m n : Nat) (s : State) :
    ∃ t, execBudget m s = .next t ∧ execBudget (m + n) s = execBudget n t := by
  induction m generalizing s with
  | zero => exact ⟨s, rfl, by rw [Nat.zero_add]⟩
  | succ m ih =>
    obtain ⟨u, e⟩ := step_answers s
    rw [Nat.add_right_comm, execBudget_succ _ e, execBudget_succ _ e]
    exact ih u

/-- Settles O32: a budget is a sequence of steps, by `execBudget_succ`. -/
theorem budgetPartitionIsInvisible : Obligations.BudgetPartitionIsInvisible := by
  refine ⟨fun _ => rfl, fun s => ?_, hostMoves_grants, execBudget_add⟩
  obtain ⟨t, e⟩ := step_answers s
  rw [execBudget_succ 0 e, e]
  rfl

end Sys2Proof.Machine
end

section
/-! Frames: which instructions can change the memory, the output, the return stack and `pc`, each an
application of `exec_preserves`. -/

namespace Sys2Proof.Machine

theorem mem_of_not_writesMemory {i : Instr} {s t : State} (hi : writesMemory i = false)
    (h : exec i s = .next t) : t.mem = s.mem :=
  exec_preserves (P := fun u => u.mem = s.mem) (fun _ _ => id) (fun _ _ _ => id)
    (fun _ _ _ => id) (fun hm => nomatch hi.symm.trans hm) (fun _ _ _ => id) (fun _ _ _ => id)
    (fun _ _ => id) rfl h

theorem out_of_ne_trap {i : Instr} {s t : State} (hi : i ≠ .trap) (h : exec i s = .next t) :
    t.out = s.out :=
  exec_preserves (P := fun u => u.out = s.out) (fun _ _ => id) (fun _ _ _ => id)
    (fun _ _ _ => id) (fun _ _ _ _ _ _ => id) (fun ht => absurd ht hi) (fun ht => absurd ht hi)
    (fun _ _ => id) rfl h

theorem not_halted_of_ne_trap {i : Instr} {s t : State} (hi : i ≠ .trap)
    (hs : s.runState ≠ .halted) (h : exec i s = .next t) : t.runState ≠ .halted :=
  exec_preserves (P := fun u => u.runState ≠ .halted) (fun _ _ => id) (fun _ _ _ => id)
    (fun _ _ _ => id) (fun _ _ _ _ _ _ => id) (fun ht => absurd ht hi) (fun ht => absurd ht hi)
    (fun _ _ _ => nofun) hs h

theorem rst_of_not_usesReturnStack {i : Instr} {s t : State} (hi : usesReturnStack i = false)
    (h : exec i s = .next t) : t.rst = s.rst :=
  exec_preserves (P := fun u => u.rst = s.rst) (fun _ _ => id)
    (fun hr => nomatch hi.symm.trans hr) (fun _ _ _ => id) (fun _ _ _ _ _ _ => id)
    (fun _ _ _ => id) (fun _ _ _ => id) (fun _ _ => id) rfl h

theorem pc_of_not_writesPc {i : Instr} {s t : State} (hi : writesPc i = false)
    (h : exec i s = .next t) : t.pc = s.pc :=
  exec_preserves (P := fun u => u.pc = s.pc) (fun _ _ => id) (fun _ _ _ => id)
    (fun hp => nomatch hi.symm.trans hp) (fun _ _ _ _ _ _ => id) (fun _ _ _ => id)
    (fun _ _ _ => id) (fun _ _ => id) rfl h

/-- The three outcomes of `trap`: each service has its selector and its argument on the stack, and
otherwise it raises the cause the fault table gives (R170 to R173). -/
theorem exec_trap_cases (s : State) :
    (∃ status rest, s.wst.words = 0 :: status :: rest) ∨
      (∃ ch rest, s.wst.words = 1 :: ch :: rest) ∨
      ∃ c w, faultCondition .trap s = some c ∧ Faults (exec .trap s) c s w := by
  obtain ⟨-, -, invalid, single, empty⟩ := trapServesTwoSelectors s
  match h : s.wst.words with
  | [] => exact .inr (.inr ⟨_, _, by simp only [faultCondition, h], empty h⟩)
  | sel :: rest =>
    by_cases hsel : sel = 0 ∨ sel = 1
    · match rest with
      | [] =>
        have known : ¬(sel ≠ 0 ∧ sel ≠ 1) := fun hne => hsel.elim hne.1 hne.2
        exact .inr (.inr ⟨_, _, by simp only [faultCondition, h, if_neg known]; rfl,
          single sel h hsel⟩)
      | arg :: rest =>
        rcases hsel with rfl | rfl
        exacts [.inl ⟨arg, rest, rfl⟩, .inr (.inl ⟨arg, rest, rfl⟩)]
    · have hne := not_or.1 hsel
      exact .inr (.inr ⟨_, _, by simp only [faultCondition, h, if_pos hne],
        invalid sel rest h hne.1 hne.2⟩)

/-- `putc` adds one Word at the end and nothing else reaches the output (R172). -/
theorem exec_trap_out {s t : State} (h : exec .trap s = .next t) :
    t.out = s.out ∨ (t.runState = s.runState ∧ ∃ ch : Word, t.out = s.out ++ [ch]) := by
  obtain ⟨halts, emits, -⟩ := trapServesTwoSelectors s
  obtain ⟨status, rest, hw⟩ | ⟨ch, rest, hw⟩ | ⟨c, w, -, st, -, e⟩ := exec_trap_cases s
  · obtain ⟨st, -, e⟩ := halts status rest hw
    obtain rfl := Host.Outcome.next.inj (e.symm.trans h)
    exact .inl rfl
  · obtain ⟨st, -, e⟩ := emits ch rest hw
    obtain rfl := Host.Outcome.next.inj (e.symm.trans h)
    exact .inr ⟨rfl, ch, rfl⟩
  · obtain rfl := Host.Outcome.next.inj (e.symm.trans h)
    exact .inl rfl

/-- Settles O29: `out_of_ne_trap` and `not_halted_of_ne_trap`, and for `trap` itself
`exec_trap_out`. -/
theorem onlyTrapReachesHost : Obligations.OnlyTrapReachesHost := by
  intro i s t h
  by_cases hi : i = .trap
  · subst hi
    exact ⟨(exec_trap_out h).imp_right fun ⟨hrun, hout⟩ => ⟨rfl, hrun, hout⟩, fun _ _ => rfl⟩
  · exact ⟨.inl (out_of_ne_trap hi h), fun ht hs => absurd ht (not_halted_of_ne_trap hi hs h)⟩

/-- Settles O28: `mem_of_not_writesMemory`, and the three that write memory are the stores. -/
theorem onlyStoreChangesMemory : Obligations.OnlyStoreChangesMemory := by
  intro i s t h hne
  cases i with
  | storeW rel => exact ⟨rel, .inl rfl⟩
  | storeB rel => exact ⟨rel, .inr (.inl rfl)⟩
  | storeS rel => exact ⟨rel, .inr (.inr rfl)⟩
  | _ => exact absurd (mem_of_not_writesMemory rfl h) hne

/-- Settles O30: `rst_of_not_usesReturnStack`, case by case for the six that use it. -/
theorem onlySixTouchReturnStack : Obligations.OnlySixTouchReturnStack := by
  intro i s t h hne
  cases i with
  | call | ccall | ret | cret | wtr | rtw => simp
  | _ => exact absurd (rst_of_not_usesReturnStack rfl h) hne

/-- Settles O31: `pc_of_not_writesPc`, case by case for the nine that write `pc`. -/
theorem onlyLitAndTransfersWritePc : Obligations.OnlyLitAndTransfersWritePc := by
  intro i s t h hne
  cases i with
  | litW | litB | litS | call | ccall | ret | cret | jmp | cjmp => simp
  | _ => exact absurd (pc_of_not_writesPc rfl h) hne

end Sys2Proof.Machine
end

section
/-! The fault tables of spec/60_exceptions.md sections 1 and 3: an instruction either completes or
raises the cause tabled for it, in both cases with a next state whose latches, memory and output are
known. -/

namespace Sys2Proof.Machine

/-! ### The two ends of an instruction -/

/-- The answer is a next state that raised nothing: the latches are as in `s`, or a core over `0`
and a status has halted with it (R77). -/
def Completes (o : Answer) (s : State) : Prop :=
  ∃ t, o = .next t ∧ t.faultCause = s.faultCause ∧
    ((t.runState = s.runState ∧ t.exitStatus = s.exitStatus) ∨
      (t.runState = .halted ∧ ∃ rest, s.wst.words = 0 :: t.exitStatus :: rest))

/-- The answer is a next state that raised this cause, in which only the two latches of R184 and the
two stacks may differ from `s`, or that completed if there is none. -/
def EndsWith (o : Answer) (s : State) : Option Cause → Prop
  | some c => ∃ ws rs : Stack, o = .next (raise c { s with wst := ws, rst := rs })
  | none => Completes o s

theorem Leaves.endsWith {o : Answer} {s : State} {w : List Word} {pc : Word}
    (h : Leaves o s w pc) : EndsWith o s none := by
  obtain ⟨st, -, e⟩ := h
  exact ⟨_, e, rfl, .inl ⟨rfl, rfl⟩⟩

theorem LeavesReturn.endsWith {o : Answer} {s : State} {r : List Word} {pc : Word}
    (h : LeavesReturn o s r pc) : EndsWith o s none := by
  obtain ⟨st, -, e⟩ := h
  exact ⟨_, e, rfl, .inl ⟨rfl, rfl⟩⟩

theorem LeavesBoth.endsWith {o : Answer} {s : State} {w r : List Word} {pc : Word}
    (h : LeavesBoth o s w r pc) : EndsWith o s none := by
  obtain ⟨ws, rs, -, -, e⟩ := h
  exact ⟨_, e, rfl, .inl ⟨rfl, rfl⟩⟩

theorem Faults.endsWith {o : Answer} {c : Cause} {s : State} {w : List Word}
    (h : Faults o c s w) : EndsWith o s (some c) := by
  obtain ⟨st, -, e⟩ := h
  exact ⟨st, s.rst, e⟩

theorem FaultsBoth.endsWith {o : Answer} {c : Cause} {s : State} {w r : List Word}
    (h : FaultsBoth o c s w r) : EndsWith o s (some c) := by
  obtain ⟨ws, rs, -, -, e⟩ := h
  exact ⟨ws, rs, e⟩

theorem FaultsAtOnce.endsWith {o : Answer} {c : Cause} {s : State}
    (h : FaultsAtOnce o c s) : EndsWith o s (some c) := ⟨s.wst, s.rst, h⟩

/-! ### Rows that several instructions share -/

theorem Stack.room_of_ne {st : Stack} (h : st.words.length ≠ 256) : st.words.length < 256 :=
  lt_of_le_of_ne st.words_length_le h

theorem endsWith_needOne {o : Answer} {s : State}
    (empty : s.wst.words = [] → EndsWith o s (some .wstUnderflow))
    (one : ∀ a rest, s.wst.words = a :: rest → EndsWith o s none) :
    EndsWith o s (needWords 1 s) := by
  unfold needWords
  match h : s.wst.words with
  | [] => exact empty h
  | a :: rest => exact one a rest h

theorem endsWith_needTwo {o : Answer} {s : State}
    (short : s.wst.words.length < 2 → EndsWith o s (some .wstUnderflow))
    (two : ∀ a b rest, s.wst.words = b :: a :: rest → EndsWith o s none) :
    EndsWith o s (needWords 2 s) := by
  unfold needWords
  split_ifs with hlen
  · exact short hlen
  · match h : s.wst.words with
    | [] | [_] => simp [h] at hlen
    | b :: a :: rest => exact two a b rest h

theorem endsWith_pushLiteral (v : Word) (n : Nat) (s : State) :
    EndsWith (finish (pushLiteral v n s)) s
      (if s.wst.words.length = 256 then some .wstOverflow else none) := by
  split_ifs with full
  · exact (faultsAtOnce_pushLiteral v n full).endsWith
  · exact (leaves_pushLiteral v n (Stack.room_of_ne full)).endsWith

theorem endsWith_binary (f : Word → Word → Word) (s : State) :
    EndsWith (finish (binary f s)) s (needWords 2 s) :=
  endsWith_needTwo (fun short => (faults_binary f short).endsWith)
    fun _ _ _ h => (leaves_binary rfl h).endsWith

/-- The address of the tables is the effective address of the model. -/
theorem accessAddress_eq (x : Word) (rel : Bool) (s : State) :
    accessAddress x rel s.pc = (effAddr x rel s).toNat := by
  obtain ⟨-, -, -, hrel⟩ := relativeAddsPcModuloWord x s
  cases rel with
  | false => rfl
  | true => exact hrel.symm

theorem endsWith_loadForm (size : Option Width) (rel : Bool) (s : State) :
    EndsWith (finish (loadForm size rel s)) s (loadCause (size.map Width.bytes) rel s) := by
  unfold loadCause
  match h : s.wst.words with
  | [] => exact (faults_of_nil _ h).endsWith
  | x :: rest => match size with
    | none => exact (faults_of_raised (loadForm_none rel h)).endsWith
    | some w =>
      obtain ⟨outside, inside⟩ := loadForm_some w rel h
      simp only [Option.map_some, accessAddress_eq]
      split_ifs with hb
      · exact (faults_of_raised (outside hb)).endsWith
      · exact (leaves_of_ok (inside (not_lt.1 hb))).endsWith

theorem endsWith_storeForm (size : Option Width) (rel : Bool) (s : State) :
    EndsWith (finish (storeForm size rel s)) s (storeCause (size.map Width.bytes) rel s) := by
  unfold storeCause
  match h : s.wst.words with
  | [] | [_] =>
    exact (faults_of_raised (storeForm_of_short size rel (by simp [h]))).endsWith
  | x :: a :: rest => match size with
    | none => exact (faults_of_raised (storeForm_none rel h)).endsWith
    | some w =>
      obtain ⟨st, hw, outside, inside⟩ := storeForm_some w rel h
      simp only [Option.map_some, accessAddress_eq]
      split_ifs with hb
      · exact (faults_of_raised ⟨st, hw, outside hb⟩).endsWith
      · exact ⟨_, congrArg finish (inside (not_lt.1 hb)), rfl, .inl ⟨rfl, rfl⟩⟩

/-! ### The rows of the stack instructions -/

/-- An instruction that ends with the cause of its row ends as tabled. -/
theorem EndsWith.tabled {i : Instr} {s : State} {c : Option Cause} (h : EndsWith (exec i s) s c)
    (row : faultCondition i s = c) : EndsWith (exec i s) s (faultCondition i s) := row ▸ h

theorem endsWith_dup (s : State) : EndsWith (exec .dup s) s (faultCondition .dup s) := by
  obtain ⟨copies, overflow, underflow⟩ := dupCopiesTop s
  simp only [faultCondition]
  split_ifs with empty full
  · exact (underflow (List.eq_nil_of_length_eq_zero empty)).endsWith
  · exact (overflow full).endsWith
  · obtain ⟨a, rest, h⟩ := List.exists_cons_of_length_pos (Nat.pos_of_ne_zero empty)
    exact (copies a rest h (Stack.room_of_ne full)).endsWith

theorem endsWith_over (s : State) : EndsWith (exec .overOp s) s (faultCondition .overOp s) := by
  obtain ⟨-, copies, overflow, underflow⟩ := swapAndOverOnTopTwo s
  simp only [faultCondition]
  split_ifs with short full
  · exact (underflow short).2.endsWith
  · exact (overflow full).endsWith
  · match h : s.wst.words with
    | [] | [_] => simp [h] at short
    | b :: a :: rest => exact (copies a b rest h (Stack.room_of_ne full)).endsWith

theorem endsWith_rot (s : State) : EndsWith (exec .rot s) s (faultCondition .rot s) := by
  obtain ⟨raises, underflow⟩ := rotRaisesThird s
  simp only [faultCondition, needWords]
  split_ifs with short
  · exact (underflow short).endsWith
  · match h : s.wst.words with
    | [] | [_] | [_, _] => simp [h] at short
    | c :: b :: a :: rest => exact (raises a b c rest h).endsWith

theorem endsWith_wtr (s : State) : EndsWith (exec .wtr s) s (faultCondition .wtr s) := by
  obtain ⟨moves, overflow, underflow⟩ := wtrMovesTopToReturnStack s
  match h : s.wst.words with
  | [] => exact (underflow h).endsWith.tabled (by simp [faultCondition, h])
  | a :: rest =>
    by_cases full : s.rst.words.length = 256
    · exact (overflow a rest h full).endsWith.tabled
        (by simp only [faultCondition, h, full]; rfl)
    · exact (moves a rest h (Stack.room_of_ne full)).endsWith.tabled
        (by simp only [faultCondition, h, full]; rfl)

theorem endsWith_rtw (s : State) : EndsWith (exec .rtw s) s (faultCondition .rtw s) := by
  obtain ⟨moves, overflow, underflow⟩ := rtwMovesReturnTopToWorking s
  match h : s.rst.words with
  | [] => exact (underflow h).endsWith.tabled (by simp [faultCondition, h])
  | a :: rest =>
    by_cases full : s.wst.words.length = 256
    · exact (overflow a rest h full).endsWith.tabled
        (by simp only [faultCondition, h, full]; rfl)
    · exact (moves a rest h (Stack.room_of_ne full)).endsWith.tabled
        (by simp only [faultCondition, h, full]; rfl)

/-! ### The rows of the control-flow instructions -/

theorem endsWith_call (rel : Bool) (s : State) :
    EndsWith (exec (.call rel) s) s (faultCondition (.call rel) s) := by
  obtain ⟨calls, overflow, underflow⟩ := callPushesReturnAddress rel s
  simp only [faultCondition]
  split_ifs with full
  · exact (overflow full).endsWith
  · have room := Stack.room_of_ne full
    exact endsWith_needOne (fun h => (underflow h room).endsWith)
      fun t rest h => (calls t rest h room).endsWith

theorem endsWith_ccall (rel : Bool) (s : State) :
    EndsWith (exec (.ccall rel) s) s (faultCondition (.ccall rel) s) := by
  obtain ⟨calls, overflow, skips, underflow⟩ := ccallCallsWhenFlagNotZero rel s
  match h : s.wst.words with
  | [] | [_] => exact (underflow (by simp [h])).endsWith.tabled (by simp [faultCondition, h])
  | f :: t :: rest =>
    by_cases hf : f = 0
    · subst hf
      exact (skips t rest h).endsWith.tabled (by simp [faultCondition, h])
    · by_cases full : s.rst.words.length = 256
      · exact (overflow t f rest h hf full).endsWith.tabled
          (by simp only [faultCondition, h, if_pos (And.intro hf full)])
      · exact (calls t f rest h hf (Stack.room_of_ne full)).endsWith.tabled
          (by simp only [faultCondition, h, if_neg (mt And.right full)])

theorem endsWith_ret (s : State) : EndsWith (exec .ret s) s (faultCondition .ret s) := by
  obtain ⟨returns, underflow⟩ := retPopsIntoPc s
  match h : s.rst.words with
  | [] => exact (underflow h).endsWith.tabled (by simp [faultCondition, h])
  | r :: rest => exact (returns r rest h).endsWith.tabled (by simp [faultCondition, h])

theorem endsWith_cret (s : State) : EndsWith (exec .cret s) s (faultCondition .cret s) := by
  obtain ⟨returns, runderflow, skips, underflow⟩ := cretReturnsWhenFlagNotZero s
  match h : s.wst.words with
  | [] => exact (underflow h).endsWith.tabled (by simp [faultCondition, h])
  | f :: rest =>
    by_cases hf : f = 0
    · subst hf
      exact (skips rest h).endsWith.tabled (by simp [faultCondition, h])
    · match hr : s.rst.words with
      | [] =>
        exact (runderflow f rest h hf hr).endsWith.tabled
          (by simp only [faultCondition, h, hr, List.length_nil, if_pos (And.intro hf trivial)])
      | r :: rrest =>
        exact (returns f rest r rrest h hf hr).endsWith.tabled (by simp [faultCondition, h, hr])

/-! ### The rows of `divmod` and `trap` -/

theorem endsWith_divmod (s : State) : EndsWith (exec .divmod s) s (faultCondition .divmod s) := by
  obtain ⟨divides, zero, single, empty⟩ := divmodLeavesRemainderAndQuotient s
  match h : s.wst.words with
  | [] => exact (empty h).endsWith.tabled (by simp [faultCondition, h])
  | b :: rest =>
    by_cases hb : b = 0
    · subst hb
      exact (zero rest h).endsWith.tabled (by simp [faultCondition, h])
    · match rest with
      | [] =>
        exact (single b h hb).endsWith.tabled
          (by simp only [faultCondition, h, if_neg hb]; rfl)
      | a :: rest =>
        obtain ⟨q, r, -, -, leaves⟩ := divides a b rest h hb
        exact leaves.endsWith.tabled (by simp only [faultCondition, h, if_neg hb]; rfl)

theorem endsWith_trap (s : State) : EndsWith (exec .trap s) s (faultCondition .trap s) := by
  obtain ⟨halts, emits, -⟩ := trapServesTwoSelectors s
  obtain ⟨status, rest, h⟩ | ⟨ch, rest, h⟩ | ⟨c, w, hc, faults⟩ := exec_trap_cases s
  · obtain ⟨st, -, e⟩ := halts status rest h
    have completes : EndsWith (exec .trap s) s none := ⟨_, e, rfl, .inr ⟨rfl, rest, h⟩⟩
    exact completes.tabled (by simp [faultCondition, h])
  · obtain ⟨st, -, e⟩ := emits ch rest h
    have completes : EndsWith (exec .trap s) s none := ⟨_, e, rfl, .inl ⟨rfl, rfl⟩⟩
    exact completes.tabled (by simp [faultCondition, h])
  · exact faults.endsWith.tabled hc

/-- Every instruction ends as the fault tables say (R181, R183). -/
theorem exec_endsWith (i : Instr) (s : State) : EndsWith (exec i s) s (faultCondition i s) := by
  cases i with
  | nop => exact ⟨s, rfl, rfl, .inl ⟨rfl, rfl⟩⟩
  | litW | litB | litS => exact endsWith_pushLiteral _ _ s
  | litX => exact ⟨s.wst, s.rst, rfl⟩
  | dup => exact endsWith_dup s
  | drop =>
    obtain ⟨drops, empty, -, -⟩ := dropAndNipRemoveOneWord s
    exact endsWith_needOne (fun h => (empty h).endsWith) fun a rest h => (drops a rest h).endsWith
  | swap =>
    obtain ⟨swaps, -, -, underflow⟩ := swapAndOverOnTopTwo s
    exact endsWith_needTwo (fun h => (underflow h).1.endsWith)
      fun a b rest h => (swaps a b rest h).endsWith
  | overOp => exact endsWith_over s
  | rot => exact endsWith_rot s
  | nip =>
    obtain ⟨-, -, nips, underflow⟩ := dropAndNipRemoveOneWord s
    exact endsWith_needTwo (fun h => (underflow h).endsWith)
      fun a b rest h => (nips a b rest h).endsWith
  | call rel => exact endsWith_call rel s
  | ccall rel => exact endsWith_ccall rel s
  | ret => exact endsWith_ret s
  | cret => exact endsWith_cret s
  | jmp rel =>
    obtain ⟨jumps, underflow⟩ := jmpGoesToTarget rel s
    exact endsWith_needOne (fun h => (underflow h).endsWith)
      fun t rest h => (jumps t rest h).endsWith
  | cjmp rel =>
    obtain ⟨jumps, skips, underflow⟩ := cjmpGoesWhenFlagNotZero rel s
    refine endsWith_needTwo (fun h => (underflow h).endsWith) fun t f rest h => ?_
    by_cases hf : f = 0
    · exact (skips t rest (hf ▸ h)).endsWith
    · exact (jumps t f rest h hf).endsWith
  | wtr => exact endsWith_wtr s
  | rtw => exact endsWith_rtw s
  | eq | neq | lt | gt | and | or | xor | shift | add | sub | mul => exact endsWith_binary _ s
  | divmod => exact endsWith_divmod s
  | fetchW rel => exact endsWith_loadForm (some .word) rel s
  | fetchB rel => exact endsWith_loadForm (some .byte) rel s
  | fetchS rel => exact endsWith_loadForm (some .short) rel s
  | fetchX rel => exact endsWith_loadForm none rel s
  | storeW rel => exact endsWith_storeForm (some .word) rel s
  | storeB rel => exact endsWith_storeForm (some .byte) rel s
  | storeS rel => exact endsWith_storeForm (some .short) rel s
  | storeX rel => exact endsWith_storeForm none rel s
  | sextB | sextS =>
    exact endsWith_needOne (fun h => (faults_of_nil _ h).endsWith)
      fun b rest h => (leaves_of_ok (unary_of_cons _ h)).endsWith
  | sextW | sextX =>
    simp only [faultCondition]
    match h : s.wst.words with
    | [] => exact (faults_of_nil _ h).endsWith
    | x :: rest => exact (faults_of_raised (wPop_then (fun _ s => raiseInvalid s) h)).endsWith
  | trap => exact endsWith_trap s

end Sys2Proof.Machine
end

section
/-! The fault tables for a step, and what follows of them: the three outcomes, what a fault leaves,
and the invariant. -/

namespace Sys2Proof.Machine

/-- Settles O34: the codes are the table's, and each is read back as its cause. -/
theorem causeCodesAndReport : Obligations.CauseCodesAndReport :=
  ⟨rfl, rfl, rfl, rfl, rfl, rfl, rfl, rfl, fun c _ => by cases c <;> rfl⟩

/-- A running core that raised nothing has not faulted. -/
theorem Completes.not_faulted {o : Answer} {s : State} (h : Completes o s)
    (hr : s.runState = .running) : ∃ t, o = .next t ∧ t.runState ≠ .faulted := by
  obtain ⟨t, e, -, ⟨hrun, -⟩ | ⟨hrun, -⟩⟩ := h
  · exact ⟨t, e, by rw [hrun, hr]; nofun⟩
  · exact ⟨t, e, by rw [hrun]; nofun⟩

/-- A running core is faulted after the instruction exactly if there is a cause, whose code the
latch then holds. -/
theorem EndsWith.shows_cause {o : Answer} {s : State} {c : Option Cause} (h : EndsWith o s c)
    (hr : s.runState = .running) : ∃ t, o = .next t ∧
      (∀ d, c = some d → t.runState = .faulted ∧ t.faultCause = causeCode d) ∧
      (c = none → t.runState ≠ .faulted) := by
  cases c with
  | some c =>
    obtain ⟨ws, rs, e⟩ := h
    refine ⟨_, e, fun d hd => ?_, nofun⟩
    cases hd
    exact ⟨rfl, rfl⟩
  | none =>
    obtain ⟨t, e, ht⟩ := h.not_faulted hr
    exact ⟨t, e, nofun, fun _ => ht⟩

/-- Settles O26: `exec_endsWith`. -/
theorem instructionFaultsAsTabled : Obligations.InstructionFaultsAsTabled := by
  intro i s hr
  obtain ⟨t, e, raises, completes⟩ := (exec_endsWith i s).shows_cause hr
  refine ⟨t, e, ?_⟩
  cases h : faultCondition i s with
  | some c => exact raises c h
  | none => exact completes h

/-- The state in which the instruction of a step begins: `pc` is past the instruction byte unless
the fetch itself failed (R73). -/
def fetched (s : State) : State := if s.pc.toNat < Config.memBytes then advance 1 s else s

/-- Every step of a running core ends as the fault tables say (R181, R183). -/
theorem step_endsWith {s : State} (hr : s.runState = .running) :
    EndsWith (step s) (fetched s) (stepCause s) := by
  unfold stepCause fetched
  by_cases hpc : s.pc.toNat < Config.memBytes
  · rw [if_neg (not_le.2 hpc), if_pos hpc]
    have hlen := s.mem.bytesFrom_length (s.pc.toNat + 1) 4
    have himm := immediateBytes_le (s.mem.read s.pc.toNat)
    obtain ⟨hshort, e⟩ | ⟨hroom, i, -, e⟩ :=
      decode_cons_by_length (s.mem.read s.pc.toNat) (s.mem.bytesFrom (s.pc.toNat + 1) 4)
    all_goals rw [← fetchBytes_of_lt hpc] at e
    · rw [if_pos (by omega), step_of_cutShort hr e]
      exact ⟨s.wst, s.rst, rfl⟩
    · rw [if_neg (by omega), e, stepRunsDecodedInstruction s i _ hr e]
      exact exec_endsWith i (advance 1 s)
  · obtain ⟨-, e⟩ | ⟨hlt, -⟩ := step_running_cases hr
    · rw [if_pos (not_lt.1 hpc), if_neg hpc, e]
      exact ⟨s.wst, s.rst, rfl⟩
    · exact absurd hlt hpc

/-- Whatever the fetch does, it leaves everything but `pc`. -/
theorem fetched_eq (s : State) : fetched s = { s with pc := (fetched s).pc } := by
  unfold fetched
  split <;> rfl

/-- Settles O27: `step_endsWith`. -/
theorem stepFaultsAsTabled : Obligations.StepFaultsAsTabled := by
  intro s hr
  obtain ⟨t, e, raises, completes⟩ := (step_endsWith hr).shows_cause
    ((congrArg State.runState (fetched_eq s)).trans hr)
  refine ⟨t, e, ?_⟩
  cases h : stepCause s with
  | some c => exact raises c h
  | none => exact completes h

/-- A step that halts a running core was a `trap` (R171). -/
theorem decode_trap_of_halted {s t : State} (hr : s.runState = .running) (e : step s = .next t)
    (ht : t.runState = .halted) : ∃ tail, decode (fetchBytes s) = .ok (.trap, tail) := by
  obtain ⟨-, e'⟩ | ⟨-, ⟨i, tail, hd, e'⟩ | ⟨-, e'⟩⟩ := step_running_cases hr
  · cases e'.symm.trans e
    exact nomatch ht
  · have hi := (onlyTrapReachesHost i _ t (e'.symm.trans e)).2 ht
      (show s.runState ≠ .halted by rw [hr]; nofun)
    exact ⟨tail, hi ▸ hd⟩
  · cases e'.symm.trans e
    exact nomatch ht

/-- Settles O22: the two ends of `step_endsWith`, a completed one either running or halted. -/
theorem stepHasThreeOutcomes : Obligations.StepHasThreeOutcomes := by
  intro s hr
  have ends := step_endsWith hr
  rw [fetched_eq] at ends
  cases hc : stepCause s with
  | some c =>
    rw [hc] at ends
    obtain ⟨ws, rs, e⟩ := ends
    exact ⟨_, e, .inr (.inr ⟨rfl, rfl, c, rfl, rfl⟩)⟩
  | none =>
    rw [hc] at ends
    obtain ⟨t, e, hcause, ⟨hrun, hstatus⟩ | ⟨hrun, rest, hw⟩⟩ := ends
    · exact ⟨t, e, .inl ⟨hrun.trans hr, hcause, hstatus⟩⟩
    · obtain ⟨tail, hd⟩ := decode_trap_of_halted hr e hrun
      exact ⟨t, e, .inr (.inl ⟨hrun, hcause, tail, _, rest, hd, hw, rfl⟩)⟩

/-- Settles O25: the state of a raise is the one of the fetch but for stacks and latches. -/
theorem faultLeavesMemoryAndOutput : Obligations.FaultLeavesMemoryAndOutput := by
  intro s t hr e ht
  have ends := step_endsWith hr
  rw [e] at ends
  cases hc : stepCause s with
  | some c =>
    rw [hc, fetched_eq] at ends
    obtain ⟨ws, rs, e'⟩ := ends
    obtain rfl := Host.Outcome.next.inj e'
    exact ⟨rfl, rfl, rfl, apply_ite State.pc _ _ _⟩
  | none =>
    rw [hc] at ends
    obtain ⟨u, e', hu⟩ := Completes.not_faulted ends
      ((congrArg State.runState (fetched_eq s)).trans hr)
    exact absurd (Host.Outcome.next.inj e' ▸ ht) hu

/-! ### The invariant -/

/-- Settles O23: the empty memory is canonical and both latches are 0. -/
theorem resetMeetsInvariant : Obligations.ResetMeetsInvariant :=
  ⟨Memory.wf_nil, fun _ => rfl, fun _ => rfl⟩

/-- Every instruction keeps the memory canonical: a checked write is the only change to it. -/
theorem exec_keeps_wf {i : Instr} {s t : State} (hs : s.mem.wf) (h : exec i s = .next t) :
    t.mem.wf :=
  exec_preserves (P := fun u => u.mem.wf) (fun _ _ => id) (fun _ _ _ => id) (fun _ _ _ => id)
    (fun _ _ _ w v hb hu => Memory.wf_writeWidth v w hu hb) (fun _ _ _ => id) (fun _ _ _ => id)
    (fun _ _ => id) hs h

theorem step_keeps_wf {s t : State} (hr : s.runState = .running) (hs : s.mem.wf)
    (e : step s = .next t) : t.mem.wf := by
  obtain ⟨-, e'⟩ | ⟨-, ⟨i, tail, hd, e'⟩ | ⟨-, e'⟩⟩ := step_running_cases hr
  · cases e'.symm.trans e
    exact hs
  · exact exec_keeps_wf (s := advance 1 s) hs (e'.symm.trans e)
  · cases e'.symm.trans e
    exact hs

/-- Settles O24: `step_keeps_wf` for the memory; each outcome of `stepHasThreeOutcomes` writes only
the latch its run state gives a meaning. -/
theorem stepKeepsInvariant : Obligations.StepKeepsInvariant := by
  intro s t hs e
  by_cases hr : s.runState = .running
  · obtain ⟨hwf, hcause, hstatus⟩ := hs
    have hcause := hcause (by rw [hr]; nofun)
    have hstatus := hstatus (by rw [hr]; nofun)
    refine ⟨step_keeps_wf hr hwf e, ?_⟩
    obtain ⟨u, e', outcome⟩ := stepHasThreeOutcomes s hr
    obtain rfl := Host.Outcome.next.inj (e.symm.trans e')
    obtain ⟨-, hc, hx⟩ | ⟨ht, hc, -⟩ | ⟨ht, hx, -⟩ := outcome
    · exact ⟨fun _ => hc.trans hcause, fun _ => hx.trans hstatus⟩
    · exact ⟨fun _ => hc.trans hcause, fun hn => absurd ht hn⟩
    · exact ⟨fun hn => absurd ht hn, fun _ => hx.trans hstatus⟩
  · obtain rfl := Host.Outcome.next.inj ((step_stopped hr).symm.trans e)
    exact hs

end Sys2Proof.Machine
end
